-- ==== Sys2Proof/Word.lean ====
section
/-! DEFINITION. The machine's Word and the two ranges of 00_scope.md (R5, R6, R7).
A Word is one of the 2^64 values of `BitVec 64`; its number is always the signed one, `toInt`.
Arithmetic is done on `Int` and narrowed only by the named operations of Machine/Flags.lean. -/

namespace Sys2Proof

/-- R5: a signed 64-bit word; `toInt` ranges over exactly -2^63 .. 2^63 - 1. -/
abbrev Word := BitVec 64

/-- R5, R6: WORD_MIN. -/
abbrev wordMin : Int := -9223372036854775808

/-- R5, R6: WORD_MAX. -/
abbrev wordMax : Int := 9223372036854775807

/-- R6: ADDR_MAX = 2^63 - 1, the greatest address. -/
abbrev addrMax : Nat := 9223372036854775807

/-- R7: `inWord(v)`. -/
abbrev inWord (v : Int) : Prop := wordMin ≤ v ∧ v ≤ wordMax

/-- R7: `inAddr(a)`, for any mathematical integer. -/
abbrev inAddr (a : Int) : Prop := 0 ≤ a ∧ a ≤ (addrMax : Int)

/-- The Word whose signed value is `v`, for `v` in the Word range. -/
abbrev wordOf (v : Int) : Word := BitVec.ofInt 64 v

end Sys2Proof
end

