-- ==== Sys2Proof/Syntax.lean ====
section
/-! DEFINITION. The decoded instruction: the opcode and the modes of the slots it uses (R26, R56).
Raw operands are no part of it: they are the Words at pc + 1 + i, which the meaning reads (R62, R74). -/

namespace Sys2Proof

/-- R58: the three addressing modes. -/
inductive Mode where
  /-- Mode digit 0: memory at the raw operand. -/
  | position
  /-- Mode digit 1: the raw operand itself. -/
  | immediate
  /-- Mode digit 2: memory at the raw operand plus `rb`. -/
  | relative
deriving DecidableEq, Repr

/-- A mode digit of an instruction word: one of the three modes, or one of the invalid digits 3..9
(R58, R66). -/
inductive ModeField where
  | mode (m : Mode)
  | invalid (digit : Nat)
deriving DecidableEq, Repr

/-- R61: what an operation does with a slot it uses. -/
inductive Role where
  /-- `R`: the operation uses the slot's read value. -/
  | read
  /-- `W`: the operation uses the slot's write address. -/
  | write
deriving DecidableEq, Repr

/-- R59: the ten operations. -/
inductive Opcode where
  | add
  | mul
  | inp
  | out
  | jt
  | jf
  | lt
  | eq
  | arb
  | hlt
deriving DecidableEq, Repr

/-- One constructor per row of opcode_table.json, with the mode fields of the slots the row uses
(R61).  `m0`, `m1`, `m2` are `mode_0`, `mode_1`, `mode_2`. -/
inductive Instr where
  /-- ADD (R77). -/
  | add (m0 m1 m2 : ModeField)
  /-- MUL (R78). -/
  | mul (m0 m1 m2 : ModeField)
  /-- IN (R79). -/
  | inp (m0 : ModeField)
  /-- OUT (R80). -/
  | out (m0 : ModeField)
  /-- JT (R85). -/
  | jt (m0 m1 : ModeField)
  /-- JF (R86). -/
  | jf (m0 m1 : ModeField)
  /-- LT (R89). -/
  | lt (m0 m1 m2 : ModeField)
  /-- EQ (R90). -/
  | eq (m0 m1 m2 : ModeField)
  /-- ARB (R92). -/
  | arb (m0 : ModeField)
  /-- HLT (R94). -/
  | hlt
deriving DecidableEq, Repr

/-- The operation of an instruction. -/
def Instr.opcode : Instr → Opcode
  | .add _ _ _ => .add
  | .mul _ _ _ => .mul
  | .inp _ => .inp
  | .out _ => .out
  | .jt _ _ => .jt
  | .jf _ _ => .jf
  | .lt _ _ _ => .lt
  | .eq _ _ _ => .eq
  | .arb _ => .arb
  | .hlt => .hlt

/-- The mode fields of the used slots, slot 0 first. -/
def Instr.modes : Instr → List ModeField
  | .add m0 m1 m2 => [m0, m1, m2]
  | .mul m0 m1 m2 => [m0, m1, m2]
  | .inp m0 => [m0]
  | .out m0 => [m0]
  | .jt m0 m1 => [m0, m1]
  | .jf m0 m1 => [m0, m1]
  | .lt m0 m1 m2 => [m0, m1, m2]
  | .eq m0 m1 m2 => [m0, m1, m2]
  | .arb m0 => [m0]
  | .hlt => []

/-- The instruction with `g` applied to the mode field of every used slot. -/
def Instr.mapModes (g : ModeField → ModeField) : Instr → Instr
  | .add m0 m1 m2 => .add (g m0) (g m1) (g m2)
  | .mul m0 m1 m2 => .mul (g m0) (g m1) (g m2)
  | .inp m0 => .inp (g m0)
  | .out m0 => .out (g m0)
  | .jt m0 m1 => .jt (g m0) (g m1)
  | .jf m0 m1 => .jf (g m0) (g m1)
  | .lt m0 m1 m2 => .lt (g m0) (g m1) (g m2)
  | .eq m0 m1 m2 => .eq (g m0) (g m1) (g m2)
  | .arb m0 => .arb (g m0)
  | .hlt => .hlt

end Sys2Proof
end

