-- ==== Sys2Proof/WellFormed.lean ====
section
/-! DEFINITION. Which instructions an instruction word can encode: every mode field is one decimal
digit (R56), and a digit 0, 1 or 2 is a mode, so an invalid field holds 3..9 (R58). -/

namespace Sys2Proof

/-- R58, R66: an invalid mode field holds a digit 3..9. -/
def ModeField.wellFormed : ModeField → Bool
  | .mode _ => true
  | .invalid d => decide (3 ≤ d) && decide (d ≤ 9)

/-- Every used slot's mode field is well formed. -/
def Instr.wellFormed (i : Instr) : Bool := i.modes.all ModeField.wellFormed

end Sys2Proof
end

