-- ==== Sys2Proof/Decode.lean ====
section
/-! DEFINITION. Decoding and encoding of the instruction word (30_encoding.md R55 to R61, R65, R70).
The word is a decimal number; decoding is total on every Word and rejects by name. -/

namespace Sys2Proof

/-- R8: `digit(w, k)`, the decimal digit at place value 10^k. -/
def digit (n k : Nat) : Nat := n / 10 ^ k % 10

/-- R59: the opcode's number, the two low decimal digits. -/
def Opcode.code : Opcode → Nat
  | .add => 1
  | .mul => 2
  | .inp => 3
  | .out => 4
  | .jt => 5
  | .jf => 6
  | .lt => 7
  | .eq => 8
  | .arb => 9
  | .hlt => 99

/-- R61: the roles of the slots the opcode uses, slot 0 first. -/
def Opcode.roles : Opcode → List Role
  | .add => [.read, .read, .write]
  | .mul => [.read, .read, .write]
  | .inp => [.write]
  | .out => [.read]
  | .jt => [.read, .read]
  | .jf => [.read, .read]
  | .lt => [.read, .read, .write]
  | .eq => [.read, .read, .write]
  | .arb => [.read]
  | .hlt => []

/-- R60, R61: how many parameter slots the opcode uses. -/
def Opcode.slots (o : Opcode) : Nat := o.roles.length

/-- R60: the length in words, one more than the number of used slots. -/
def Opcode.length (o : Opcode) : Nat := o.slots + 1

/-- The ten rows of opcode_table.json, in its order (R73). -/
def opcodeTable : List Opcode :=
  [.add, .mul, .inp, .out, .jt, .jf, .lt, .eq, .arb, .hlt]

/-- R73: the row a non-negative instruction word selects, `w mod 100 = match`. -/
def opcodeOf (n : Nat) : Option Opcode := opcodeTable.find? (fun o => o.code == n % 100)

/-- R58: the mode a digit stands for; 3..9 stand for none. -/
def modeOfDigit : Nat → ModeField
  | 0 => .mode .position
  | 1 => .mode .immediate
  | 2 => .mode .relative
  | d => .invalid d

/-- R61, R65: the instruction of an opcode with the modes of slots 0, 1, 2; the modes of unused slots
are ignored. -/
def Opcode.build : Opcode → ModeField → ModeField → ModeField → Instr
  | .add, m0, m1, m2 => .add m0 m1 m2
  | .mul, m0, m1, m2 => .mul m0 m1 m2
  | .inp, m0, _, _ => .inp m0
  | .out, m0, _, _ => .out m0
  | .jt, m0, m1, _ => .jt m0 m1
  | .jf, m0, m1, _ => .jf m0 m1
  | .lt, m0, m1, m2 => .lt m0 m1 m2
  | .eq, m0, m1, m2 => .eq m0 m1 m2
  | .arb, m0, _, _ => .arb m0
  | .hlt, _, _, _ => .hlt

/-- Why a word is no instruction (R69: the two classes that select no operation). -/
inductive DecodeReject where
  /-- R55: a negative instruction word. -/
  | negativeWord
  /-- R59: an opcode outside 1..9 and 99. -/
  | unrecognisedOpcode (opcode : Nat)
deriving DecidableEq, Repr

/-- R55, R56, R57, R59: the decoder, total on every Word. -/
def decode (w : Word) : Except DecodeReject Instr :=
  if w.toInt < 0 then .error .negativeWord
  else
    match opcodeOf w.toNat with
    | none => .error (.unrecognisedOpcode (w.toNat % 100))
    | some o =>
      .ok (o.build (modeOfDigit (digit w.toNat 2)) (modeOfDigit (digit w.toNat 3))
        (modeOfDigit (digit w.toNat 4)))

/-- R58: the digit of a mode field, the inverse of `modeOfDigit`. -/
def ModeField.digit : ModeField → Nat
  | .mode .position => 0
  | .mode .immediate => 1
  | .mode .relative => 2
  | .invalid d => d

/-- R70: the number `op + 100*m0 + 1000*m1 + 10000*m2`. -/
def packDigits (op m0 m1 m2 : Nat) : Nat := op + 100 * m0 + 1000 * m1 + 10000 * m2

/-- R70: the number of the canonical instruction word; unused slots have mode digit 0. -/
def Instr.number : Instr → Nat
  | .add m0 m1 m2 => packDigits 1 m0.digit m1.digit m2.digit
  | .mul m0 m1 m2 => packDigits 2 m0.digit m1.digit m2.digit
  | .inp m0 => packDigits 3 m0.digit 0 0
  | .out m0 => packDigits 4 m0.digit 0 0
  | .jt m0 m1 => packDigits 5 m0.digit m1.digit 0
  | .jf m0 m1 => packDigits 6 m0.digit m1.digit 0
  | .lt m0 m1 m2 => packDigits 7 m0.digit m1.digit m2.digit
  | .eq m0 m1 m2 => packDigits 8 m0.digit m1.digit m2.digit
  | .arb m0 => packDigits 9 m0.digit 0 0
  | .hlt => packDigits 99 0 0 0

/-- R70: the canonical instruction word of an instruction. -/
def encode (i : Instr) : Word := BitVec.ofNat 64 i.number

/-- R60, R70: the words of an instruction in memory order: the instruction word, then the raw
operands of the used slots. -/
def encodeWords (i : Instr) (raws : List Word) : List Word :=
  encode i :: raws.take i.opcode.slots

/-- An instruction of `nbits` given bits, numbered with bit 0 the least significant bit of the first
word, as the four words of the longest format (R60); the bits above `nbits` are 0.  Each Word takes
64 bits of the number (log entry 14). -/
def wordsOfBits (nbits w : Nat) : List Word :=
  let n := w % 2 ^ nbits
  [BitVec.ofNat 64 n, BitVec.ofNat 64 (n / 2 ^ 64), BitVec.ofNat 64 (n / 2 ^ 128),
    BitVec.ofNat 64 (n / 2 ^ 192)]

/-- The instruction the decoder reads from words laid out in memory order. -/
def decodeWords : List Word → Option Instr
  | [] => none
  | w :: _ => (decode w).toOption

/-- The instruction the decoder reads from an instruction whose bits are `w`, numbered as the opcode
table numbers them. -/
def decodeTableWord (nbits w : Nat) : Option Instr := decodeWords (wordsOfBits nbits w)

end Sys2Proof
end

