-- ==== Sys2Proof/Config.lean ====
section
/-! DEFINITION. What is fixed for a run: the parameters of 00_scope.md R6, and the one free value.
A `Params` is an argument of every rule (State holds one and no step writes it, log entry 3). -/

namespace Sys2Proof

/-- R6: the two values of `INVALID_MODE_POLICY` and of `IMM_WRITE_POLICY`. -/
inductive ModePolicy where
  /-- The instruction halts with the fault (the spec's default). -/
  | fault
  /-- The slot is treated as position mode. -/
  | asPosition
deriving DecidableEq, Repr

/-- R6: the two values of `OVERFLOW_POLICY`. -/
inductive OverflowPolicy where
  /-- The instruction halts with `Overflow(w)` (the spec's default). -/
  | fault
  /-- The result is `wrap64` of the exact one. -/
  | wrap
deriving DecidableEq, Repr

/-- R6: the two values of `PERIPHERAL`. -/
inductive PeripheralKind where
  /-- The Arcade Display (R116). -/
  | arcade
  /-- The abstract peripheral whose every input is a draw (R84). -/
  | generic
deriving DecidableEq, Repr

/-- R118: the five tiles. -/
inductive Tile where
  | empty
  | wall
  | block
  | paddle
  | ball
deriving DecidableEq, Repr

/-- The parameters of R6 that have more than one setting. -/
structure Params where
  /-- INVALID_MODE_POLICY (R66). -/
  invalidMode : ModePolicy
  /-- IMM_WRITE_POLICY (R67). -/
  immWrite : ModePolicy
  /-- OVERFLOW_POLICY (R76). -/
  overflow : OverflowPolicy
  /-- PERIPHERAL (R81). -/
  peripheral : PeripheralKind
  /-- TILE_EMPTY (R118). -/
  tileEmpty : Word
  /-- TILE_WALL (R118), read by rendering only. -/
  tileWall : Word
  /-- TILE_BLOCK (R118), read by rendering only. -/
  tileBlock : Word
  /-- TILE_PADDLE (R118). -/
  tilePaddle : Word
  /-- TILE_BALL (R118). -/
  tileBall : Word
  /-- ARCADE_RESET_PADDLE (R125). -/
  resetPaddle : Word × Word
  /-- ARCADE_RESET_BALL (R125). -/
  resetBall : Word × Word
deriving DecidableEq, Repr

/-- The defaults of R6.
DESIGN CHOICE (log entry 6, unsafe): the OPEN pair ARCADE_RESET_PADDLE, ARCADE_RESET_BALL is (0, 0),
the value the test vectors use.  The tile codes 0 to 4 are the spec's default (log entry 7). -/
def Params.default : Params :=
  { invalidMode := .fault, immWrite := .fault, overflow := .fault, peripheral := .arcade,
    tileEmpty := 0, tileWall := 1, tileBlock := 2, tilePaddle := 3, tileBall := 4,
    resetPaddle := (0, 0), resetBall := (0, 0) }

/-- R118: the constraint on the tile codes, TILE_PADDLE and TILE_BALL differ. -/
abbrev Params.wf (p : Params) : Prop := p.tilePaddle ≠ p.tileBall

/-- FREE VALUE (log entry 4, safe): the k-th input of the generic peripheral, any Word, under no law
(R81, R84, U12).  It has no body: a claim about a run with the generic peripheral holds for every
sequence of drawn inputs. -/
opaque Config.draw : Nat → Word

end Sys2Proof
end

