-- ==== Sys2Proof/Machine/State.lean ====
section
/-! DEFINITION. The state of the machine as plain data (10_state.md R16 to R34), the reasons a step can
stop, and the state right after reset. -/

namespace Sys2Proof.Machine

/-- R20: the run state. -/
inductive RunState where
  /-- After reset, before the host's `execute()`. -/
  | ready
  /-- Instructions execute only here. -/
  | running
  /-- Terminal. -/
  | halted
deriving DecidableEq, Repr

/-- R21, R96: why the engine halted. -/
inductive HaltCause where
  /-- Not halted. -/
  | none
  /-- HLT, the normal end. -/
  | halt
  /-- The instruction word `w` is negative or its opcode is no operation. -/
  | unrecognized (w : Word)
  /-- Used slot `i` of instruction word `w` has a mode digit 3..9. -/
  | invalidMode (w : Word) (i : Nat)
  /-- Write slot `i` of instruction word `w` is in immediate mode. -/
  | immediateWrite (w : Word) (i : Nat)
  /-- The mathematical integer `a` is not an address. -/
  | addressFault (a : Int)
  /-- The exact result of instruction word `w` is no Word. -/
  | overflow (w : Word)
deriving DecidableEq, Repr

/-- R29: one input/output event of the run. -/
inductive Event where
  /-- An IN received `v`. -/
  | inp (v : Word)
  /-- An OUT sent `v`. -/
  | out (v : Word)
deriving DecidableEq, Repr

/-- R27: the display's output-decoder phase. -/
inductive Phase where
  | expectX
  | expectY
  | expectTile
deriving DecidableEq, Repr

/-- R24, R35: memory as (address, Word) pairs, addresses strictly rising, no Word 0 listed; an unlisted
address reads as 0 (R38).  The unit of addressing is the Word and has no bytes (R41, R42, log entry 1). -/
abbrev Memory := List (Nat × Word)

/-- R13, R119: the finite map from (x, y) to the raw tile code, one entry a coordinate. -/
abbrev Grid := List ((Word × Word) × Word)

/-- R27: the Arcade Display's state. -/
structure Display where
  phase : Phase
  pendX : Word
  pendY : Word
  grid : Grid
  score : Word
  maxX : Word
  maxY : Word
  paddle : Word × Word
  ball : Word × Word
deriving DecidableEq, Repr

/-- The state tuple `(M, pc, rb, run_state, halt_cause, P, trace)` of 10_state.md, with two fields of the
model's own: the run's parameters (R6, log entry 3) and the count of generic draws (R84, log entry 4). -/
structure State where
  /-- M (R24). -/
  mem : Memory
  /-- pc (R17). -/
  pc : Nat
  /-- rb (R19). -/
  rb : Word
  /-- run_state (R20). -/
  runState : RunState
  /-- halt_cause (R21). -/
  haltCause : HaltCause
  /-- P with PERIPHERAL = arcade (R27); with PERIPHERAL = generic no instruction
  reads it, only `State.inspect` (log entries 2, 21). -/
  display : Display
  /-- trace (R29). -/
  trace : List Event
  /-- MODEL's own: the parameters fixed for the run (R6, R32). -/
  params : Params
  /-- MODEL's own: how many inputs the generic peripheral has answered (R84). -/
  draws : Nat
deriving DecidableEq, Repr

/-- Why a step could stop with a fault: nothing can.  Every fault of this machine is a fail-soft halt,
a NEXT state with `halted` and the cause recorded (R97, R99 "Nothing is raised out of the engine",
log entry 10), so the type has no constructor and nobody raises it; safe. -/
inductive Fault where
deriving DecidableEq, Repr

/-- Why a step could be refused. -/
inductive Refusal where
  /-- Raised only by an arm of `exec` whose instruction has no meaning yet; safe.  No arm does. -/
  | notModelled (mnemonic : String)
deriving DecidableEq, Repr

/-- R27, R136, R140: the display at reset.
DESIGN CHOICE (log entry 5, unsafe): `pendX` and `pendY`, which the spec leaves unspecified and never
observed (R31), are 0. -/
def Display.reset (p : Params) : Display :=
  { phase := .expectX, pendX := 0, pendY := 0, grid := [], score := 0, maxX := 0, maxY := 0,
    paddle := p.resetPaddle, ball := p.resetBall }

/-- R30, R140: the machine created with parameters `p` and the empty program (N = 0, R134).
DESIGN CHOICE (log entry 4): the model's own counter `draws` starts at 0. -/
def State.resetWith (p : Params) : State :=
  { mem := [], pc := 0, rb := 0, runState := .ready, haltCause := .none,
    display := Display.reset p, trace := [], params := p, draws := 0 }

/-- R30, R132, R137: the machine right after reset, under the parameters' defaults. -/
def State.reset : State := State.resetWith Params.default

end Sys2Proof.Machine
end

