-- ==== Sys2Proof/Machine/Cells.lean ====
section
/-! DEFINITION. Finite maps to Words as lists of cells in one canonical form: keys strictly rising by a
rank into the natural numbers.  Memory (R24) and the display's grid (R13, R119) are both held so. -/

namespace Sys2Proof.Machine

/-- The Word held at the key of rank `k`, if any. -/
def cellsFind {κ : Type} (rank : κ → Nat) (k : Nat) : List (κ × Word) → Option Word
  | [] => none
  | c :: cs => if rank c.1 = k then some c.2 else cellsFind rank k cs

/-- R13: `G[key] <- v`, adding or replacing the entry for `key` at its place in the order. -/
def cellsPut {κ : Type} (rank : κ → Nat) (key : κ) (v : Word) : List (κ × Word) → List (κ × Word)
  | [] => [(key, v)]
  | c :: cs =>
    if rank key < rank c.1 then (key, v) :: c :: cs
    else if rank key = rank c.1 then (key, v) :: cs
    else c :: cellsPut rank key v cs

/-- The map without an entry at the key of rank `k`. -/
def cellsDrop {κ : Type} (rank : κ → Nat) (k : Nat) (cs : List (κ × Word)) : List (κ × Word) :=
  cs.filter (fun c => decide (rank c.1 ≠ k))

/-- The canonical order: ranks strictly rising along the list. -/
abbrev cellsRising {κ : Type} (rank : κ → Nat) (cs : List (κ × Word)) : Prop :=
  cs.Pairwise (fun c d => rank c.1 < rank d.1)

end Sys2Proof.Machine
end

