-- ==== Sys2Proof/Machine/Ops.lean ====
section
/-! DEFINITION. The named operations over memory and registers: memory access (20_memory.md), the
halt that every fault and HLT takes (R97), the start of a run (R144) and the commit of an instruction
(R75).  There is no return from a halt: `Halted` is terminal (R103). -/

namespace Sys2Proof.Machine

/-- R38: what an address that was never written reads as. -/
def memDefault : Word := 0

/-- R36, R38: `MemRead(a, 1)`. -/
def Memory.read (m : Memory) (a : Nat) : Word := (cellsFind id a m).getD memDefault

/-- R37: `MemWrite(a, 1, v)`, keeping the canonical form: a Word equal to what an unlisted address reads
as is not listed. -/
def Memory.write (m : Memory) (a : Nat) (v : Word) : Memory :=
  if v = memDefault then cellsDrop id a m else cellsPut id a v m

/-- R133: Words written at consecutive addresses from `a` on; nothing is written past ADDR_MAX. -/
def Memory.writeWords (m : Memory) (a : Nat) : List Word → Memory
  | [] => m
  | w :: ws => if a ≤ addrMax then Memory.writeWords (m.write a w) (a + 1) ws else m

/-- The canonical form of memory: addresses strictly rising and in 0..ADDR_MAX, no entry equal to what
an unlisted address reads as. -/
abbrev Memory.wf (m : Memory) : Prop :=
  cellsRising id m ∧ ∀ c ∈ m, c.1 ≤ addrMax ∧ c.2 ≠ memDefault

/-- R15: the instruction word, the Word at `pc`. -/
def State.word (s : State) : Word := s.mem.read s.pc

/-- R9, R97: `halt(cause)`, the one operation every fault, every unrecognised word and HLT takes:
`run_state <- Halted`, `halt_cause <- cause`, and nothing else changes. -/
def takeHalt (s : State) (c : HaltCause) : State :=
  { s with runState := .halted, haltCause := c }

/-- R144: what `execute()` does in `Ready`. -/
def State.start (s : State) : State := { s with runState := .running }

/-- R74: the updates of one instruction, at most one memory write, one `rb` write and one trace event. -/
structure Update where
  store : Option (Nat × Word) := none
  base : Option Word := none
  event : Option Event := none
deriving DecidableEq, Repr

/-- The memory after an update's write, if it has one. -/
def Update.applyStore (u : Update) (m : Memory) : Memory :=
  match u.store with
  | none => m
  | some (a, v) => m.write a v

/-- R75: `COMMIT(upd, npc)`, one atomic change. -/
def commit (s : State) (u : Update) (npc : Nat) : State :=
  { s with
    mem := u.applyStore s.mem
    rb := u.base.getD s.rb
    trace := s.trace ++ u.event.toList
    pc := npc }

/-- R97, R99: an instruction ends in a next state, the committed one, or, where a check failed, the
state before it, halted with the cause. -/
def finish (s : State) (r : Except HaltCause State) : Host.Outcome State Fault Refusal :=
  match r with
  | .ok t => .next t
  | .error c => .next (takeHalt s c)

end Sys2Proof.Machine
end

