-- ==== Sys2Proof/Machine/Flags.lean ====
section
/-! DEFINITION. Results.  The core has no flags or condition codes (R22); a comparison's outcome is a
Word (R11), and a result outside the Word range is settled by OVERFLOW_POLICY (R76). -/

namespace Sys2Proof.Machine

/-- R12: `wrap64(v)`, the Word congruent to `v` modulo 2^64. -/
def wrap64 (v : Int) : Word := BitVec.ofInt 64 v

/-- R11: the truth value written to memory. -/
def truth (b : Bool) : Word := if b then 1 else 0

/-- R76: `ArithResult(v, w)` for the instruction word of `s`. -/
def arithResult (s : State) (v : Int) : Except HaltCause Word :=
  if inWord v then .ok (wordOf v)
  else
    match s.params.overflow with
    | .fault => .error (.overflow s.word)
    | .wrap => .ok (wrap64 v)

end Sys2Proof.Machine
end

