-- ==== Sys2Proof/Machine/Operands.lean ====
section
/-! DEFINITION. Every operand form: the address check (R10), the mode check (R65, R66), the slots
(R62), read values (R63), write addresses (R64, R67) and the next pc (R75, R87), in the order of R100. -/

namespace Sys2Proof.Machine

/-- R10, R40: `addrcheck(a)`: `a` itself if 0 <= a <= ADDR_MAX, else `AddressFault(a)`. -/
def addrcheck (a : Int) : Except HaltCause Nat :=
  match a with
  | .ofNat n => if n ≤ addrMax then .ok n else .error (.addressFault a)
  | .negSucc _ => .error (.addressFault a)

/-- R66: the mode of used slot `i`; an invalid digit is settled by INVALID_MODE_POLICY. -/
def slotMode (s : State) (i : Nat) (f : ModeField) : Except HaltCause Mode :=
  match f with
  | .mode m => .ok m
  | .invalid _ =>
    match s.params.invalidMode with
    | .fault => .error (.invalidMode s.word i)
    | .asPosition => .ok .position

/-- R62: the raw operand of slot `i`. -/
def rawOperand (s : State) (i : Nat) : Except HaltCause Word := do
  let a ← addrcheck ((s.pc : Int) + 1 + i)
  return s.mem.read a

/-- R63: `ReadValue(m, raw)`. -/
def readValue (s : State) (m : Mode) (raw : Word) : Except HaltCause Word :=
  match m with
  | .immediate => .ok raw
  | .position => do return s.mem.read (← addrcheck raw.toInt)
  | .relative => do return s.mem.read (← addrcheck (raw.toInt + s.rb.toInt))

/-- R64, R67: `WriteAddr(m, raw, w, i)`. -/
def writeAddr (s : State) (m : Mode) (raw : Word) (i : Nat) : Except HaltCause Nat :=
  match m with
  | .position => addrcheck raw.toInt
  | .relative => addrcheck (raw.toInt + s.rb.toInt)
  | .immediate =>
    match s.params.immWrite with
    | .fault => .error (.immediateWrite s.word i)
    | .asPosition => addrcheck raw.toInt

/-- R74: slot `i` in role R, its raw operand fetched and then read. -/
def readSlot (s : State) (i : Nat) (m : Mode) : Except HaltCause Word := do
  readValue s m (← rawOperand s i)

/-- R74: slot `i` in role W, its raw operand fetched and then turned into an address. -/
def writeSlot (s : State) (i : Nat) (m : Mode) : Except HaltCause Nat := do
  writeAddr s m (← rawOperand s i) i

/-- The address slot `i` in role W stores to: its mode checked, then resolved. -/
def storeAddr (s : State) (i : Nat) (f : ModeField) : Except HaltCause Nat := do
  writeSlot s i (← slotMode s i f)

/-- The resolved slots of a form with two read operands and one write operand. -/
structure Triple where
  a : Word
  b : Word
  wa : Nat
deriving DecidableEq, Repr

/-- R74 for the roles R, R, W (ADD, MUL, LT, EQ): all modes first, then the slots in order. -/
def operandsRRW (s : State) (m0 m1 m2 : ModeField) : Except HaltCause Triple := do
  let k0 ← slotMode s 0 m0
  let k1 ← slotMode s 1 m1
  let k2 ← slotMode s 2 m2
  let a ← readSlot s 0 k0
  let b ← readSlot s 1 k1
  let wa ← writeSlot s 2 k2
  return { a := a, b := b, wa := wa }

/-- R74 for the roles R, R (JT, JF). -/
def operandsRR (s : State) (m0 m1 : ModeField) : Except HaltCause (Word × Word) := do
  let k0 ← slotMode s 0 m0
  let k1 ← slotMode s 1 m1
  let a ← readSlot s 0 k0
  let b ← readSlot s 1 k1
  return (a, b)

/-- R74 for the role R (OUT, ARB). -/
def operandR (s : State) (m0 : ModeField) : Except HaltCause Word := do
  readSlot s 0 (← slotMode s 0 m0)

/-- R74 for the role W (IN). -/
def operandW (s : State) (m0 : ModeField) : Except HaltCause Nat := storeAddr s 0 m0

/-- R75: the next pc of an instruction of `len` words that advances sequentially. -/
def nextPc (s : State) (len : Nat) : Except HaltCause Nat := addrcheck ((s.pc : Int) + len)

/-- R87: the next pc of a taken jump to the read value `b`. -/
def jumpTarget (b : Word) : Except HaltCause Nat := addrcheck b.toInt

/-- R85, R86: the next pc of a jump, its target if taken and the sequential advance if not. -/
def jumpPc (s : State) (taken : Bool) (b : Word) : Except HaltCause Nat :=
  if taken then jumpTarget b else nextPc s 3

end Sys2Proof.Machine
end

