-- ==== Sys2Proof/Machine/Arithmetic.lean ====
section
/-! DEFINITION. ADD and MUL (40_arithmetic.md R76 to R78). -/

namespace Sys2Proof.Machine

/-- R77, ADD: `M[wa] <- ArithResult(a + b)`, pc + 4. -/
def execAdd (m0 m1 m2 : ModeField) (s : State) : Host.Outcome State Fault Refusal :=
  finish s do
    let o ← operandsRRW s m0 m1 m2
    let r ← arithResult s (o.a.toInt + o.b.toInt)
    let npc ← nextPc s 4
    return commit s { store := some (o.wa, r) } npc

/-- R78, MUL: `M[wa] <- ArithResult(a * b)`, the exact product, pc + 4. -/
def execMul (m0 m1 m2 : ModeField) (s : State) : Host.Outcome State Fault Refusal :=
  finish s do
    let o ← operandsRRW s m0 m1 m2
    let r ← arithResult s (o.a.toInt * o.b.toInt)
    let npc ← nextPc s 4
    return commit s { store := some (o.wa, r) } npc

end Sys2Proof.Machine
end

