-- ==== Sys2Proof/Machine/Base.lean ====
section
/-! DEFINITION. ARB (44_base.md R92, R93). -/

namespace Sys2Proof.Machine

/-- R92, ARB: `rb <- ArithResult(rb + a)`, pc + 2. -/
def execArb (m0 : ModeField) (s : State) : Host.Outcome State Fault Refusal :=
  finish s do
    let a ← operandR s m0
    let r ← arithResult s (s.rb.toInt + a.toInt)
    let npc ← nextPc s 2
    return commit s { base := some r } npc

end Sys2Proof.Machine
end

