-- ==== Sys2Proof/Machine/Compare.lean ====
section
/-! DEFINITION. LT and EQ (43_compare.md R89 to R91). -/

namespace Sys2Proof.Machine

/-- R89, R91, LT: `M[wa] <- 1` if a < b as signed integers, else 0; pc + 4. -/
def execLt (m0 m1 m2 : ModeField) (s : State) : Host.Outcome State Fault Refusal :=
  finish s do
    let o ← operandsRRW s m0 m1 m2
    let npc ← nextPc s 4
    return commit s { store := some (o.wa, truth (decide (o.a.toInt < o.b.toInt))) } npc

/-- R90, EQ: `M[wa] <- 1` if a = b, else 0; pc + 4. -/
def execEq (m0 m1 m2 : ModeField) (s : State) : Host.Outcome State Fault Refusal :=
  finish s do
    let o ← operandsRRW s m0 m1 m2
    let npc ← nextPc s 4
    return commit s { store := some (o.wa, truth (decide (o.a = o.b))) } npc

end Sys2Proof.Machine
end

