-- ==== Sys2Proof/Machine/Control.lean ====
section
/-! DEFINITION. JT and JF (42_control.md R85 to R88).  The target is resolved whether or not the jump is
taken; only a taken target is checked as an address. -/

namespace Sys2Proof.Machine

/-- R85, JT: `pc <- b` if a != 0, else pc + 3. -/
def execJt (m0 m1 : ModeField) (s : State) : Host.Outcome State Fault Refusal :=
  finish s do
    let o ← operandsRR s m0 m1
    let npc ← jumpPc s (decide (o.1 ≠ 0)) o.2
    return commit s {} npc

/-- R86, JF: `pc <- b` if a = 0, else pc + 3. -/
def execJf (m0 m1 : ModeField) (s : State) : Host.Outcome State Fault Refusal :=
  finish s do
    let o ← operandsRR s m0 m1
    let npc ← jumpPc s (decide (o.1 = 0)) o.2
    return commit s {} npc

end Sys2Proof.Machine
end

