-- ==== Sys2Proof/Machine/Halt.lean ====
section
/-! DEFINITION. HLT (45_halt.md R94, R95). -/

namespace Sys2Proof.Machine

/-- R94, HLT: `halt(Halt)`; pc is not advanced and no slot is read. -/
def execHlt (s : State) : Host.Outcome State Fault Refusal := .next (takeHalt s .halt)

end Sys2Proof.Machine
end

