-- ==== Sys2Proof/Machine/Display.lean ====
section
/-! DEFINITION. The peripheral port (41_io.md R81 to R84) and the Arcade Display (60_exceptions.md R116
to R131).  No display operation reads memory, pc or rb, and none can halt the engine (R112, R117). -/

namespace Sys2Proof.Machine

/-- The grid's order: a coordinate's place in its list, one number for each pair of Words
(representation only, log entry 16). -/
def gridRank (p : Word × Word) : Nat := p.1.toNat * 2 ^ 64 + p.2.toNat

/-- R119: the raw code placed at `p`, if `p` is in `dom(grid)`. -/
def Grid.find (g : Grid) (p : Word × Word) : Option Word := cellsFind gridRank (gridRank p) g

/-- R13, R119: `grid[p] <- v`. -/
def Grid.put (g : Grid) (p : Word × Word) (v : Word) : Grid := cellsPut gridRank p v g

/-- The canonical form of the grid: one entry a coordinate, in the order of `gridRank`. -/
abbrev Grid.wf (g : Grid) : Prop := cellsRising gridRank g

/-- R118: the tile a code names; a code outside the five names none (R119).
DESIGN CHOICE (log entry 20; unsafe for a claim about this name, safe for every step): where two code
parameters coincide, which the spec excludes only for TILE_PADDLE and TILE_BALL, the code names the first of
empty, wall, block, paddle, ball. -/
def Params.tileOf (p : Params) (v : Word) : Option Tile :=
  if v = p.tileEmpty then some .empty
  else if v = p.tileWall then some .wall
  else if v = p.tileBlock then some .block
  else if v = p.tilePaddle then some .paddle
  else if v = p.tileBall then some .ball
  else none

/-- R119, R129: the code the renderer reads at `p`; a coordinate not in the grid reads as TILE_EMPTY. -/
def Display.codeAt (pr : Params) (d : Display) (p : Word × Word) : Word :=
  (d.grid.find p).getD pr.tileEmpty

/-- R118, R119, R129: the tile the renderer sees at `p`, if the code there names one. -/
def Display.tileAt (pr : Params) (d : Display) (p : Word × Word) : Option Tile :=
  Params.tileOf pr (d.codeAt pr p)

/-- R121: the greater of a bound and a value just received, as signed Words. -/
def raiseBound (bound v : Word) : Word := if bound.toInt < v.toInt then v else bound

/-- R119, R121, R124: placing code `v` at the pending coordinate, and tracking the ball and the paddle. -/
def Display.place (pr : Params) (d : Display) (v : Word) : Display :=
  { d with
    grid := d.grid.put (d.pendX, d.pendY) v
    ball := if v = pr.tileBall then (d.pendX, d.pendY) else d.ball
    paddle := if v = pr.tilePaddle then (d.pendX, d.pendY) else d.paddle }

/-- R120, R121: the third value of a triple; an X of -1 makes it a score. -/
def Display.finishTriple (pr : Params) (d : Display) (v : Word) : Display :=
  if d.pendX.toInt = -1 then { d with score := v } else d.place pr v

/-- R121: `emitOutput(v)` on the Arcade Display. -/
def Display.emitOutput (pr : Params) (d : Display) (v : Word) : Display :=
  match d.phase with
  | .expectX => { d with pendX := v, maxX := raiseBound d.maxX v, phase := .expectY }
  | .expectY => { d with pendY := v, maxY := raiseBound d.maxY v, phase := .expectTile }
  | .expectTile => { d.finishTriple pr v with phase := .expectX }

/-- R126, R127: `requestInput()` on the Arcade Display, the control law on the two x components. -/
def Display.requestInput (d : Display) : Word :=
  if d.paddle.1.toInt < d.ball.1.toInt then 1
  else if d.ball.1.toInt < d.paddle.1.toInt then -1
  else 0

/-- R80, R82, R84: `emitOutput(v)` on the attached peripheral; generic has no effect beyond the trace. -/
def emitOutput (s : State) (v : Word) : State :=
  match s.params.peripheral with
  | .arcade => { s with display := s.display.emitOutput s.params v }
  | .generic => s

/-- R81, R84: the Word `requestInput()` answers; generic is a draw, the free value `Config.draw`. -/
def inputValue (s : State) : Word :=
  match s.params.peripheral with
  | .arcade => s.display.requestInput
  | .generic => Config.draw s.draws

/-- R82, R126: the state after `requestInput()`; the display is unchanged, a generic draw is counted. -/
def afterInput (s : State) : State :=
  match s.params.peripheral with
  | .arcade => s
  | .generic => { s with draws := s.draws + 1 }

end Sys2Proof.Machine
end

