-- ==== Sys2Proof/Machine/InputOutput.lean ====
section
/-! DEFINITION. IN and OUT (41_io.md R79, R80).  Every check, the next pc's included, comes before the
peripheral call, so a faulting IN or OUT consumes no input and sends nothing (D23). -/

namespace Sys2Proof.Machine

/-- R79, IN: `M[wa] <- requestInput()`, trace `In(v)`, pc + 2. -/
def execIn (m0 : ModeField) (s : State) : Host.Outcome State Fault Refusal :=
  finish s do
    let wa ← operandW s m0
    let npc ← nextPc s 2
    return commit (afterInput s)
      { store := some (wa, inputValue s), event := some (.inp (inputValue s)) } npc

/-- R80, OUT: `emitOutput(a)`, trace `Out(a)`, pc + 2. -/
def execOut (m0 : ModeField) (s : State) : Host.Outcome State Fault Refusal :=
  finish s do
    let a ← operandR s m0
    let npc ← nextPc s 2
    return commit (emitOutput s a) { event := some (.out a) } npc

end Sys2Proof.Machine
end

