-- ==== Sys2Proof/Machine/Fetch.lean ====
section
/-! DEFINITION. Fetching and decoding at pc (R26, R55, R59, R74), and placing an instruction there. -/

namespace Sys2Proof.Machine

/-- R74: the instruction decoded from the Word at pc, or the cause to halt with.
R17 keeps pc in 0..ADDR_MAX; in a state where it is not, which no run reaches, the access raises
AddressFault as R45 says of any access outside the space (DEDUCED, log entry 11, safe). -/
def fetch (s : State) : Except HaltCause Instr := do
  let a ← addrcheck (s.pc : Int)
  match decode (s.mem.read a) with
  | .ok i => return i
  | .error _ => throw (.unrecognized (s.mem.read a))

/-- An instruction of `nbits` given bits stored at pc, and the engine set running, so that the next step
fetches exactly it (log entries 8, 14). -/
def placeInstruction (s : State) (nbits w : Nat) : State :=
  { s with mem := s.mem.writeWords s.pc (wordsOfBits nbits w), runState := .running }

end Sys2Proof.Machine
end

