-- ==== Sys2Proof/Machine/Step.lean ====
section
/-! DEFINITION. One step of `execute()` (70_reset_and_hazards.md R144): from Ready the run starts; in
Running one whole instruction executes (30_encoding.md R74); in Halted nothing changes. -/

namespace Sys2Proof.Machine

/-- R74: one instruction cycle. -/
def cycle (s : State) : Host.Outcome State Fault Refusal :=
  match fetch s with
  | .ok i => exec i s
  | .error c => .next (takeHalt s c)

/-- R144, R74, R20: one step (DEDUCED for Ready and Halted, log entries 8, 9). -/
def step (s : State) : Host.Outcome State Fault Refusal :=
  match s.runState with
  | .ready => .next s.start
  | .running => cycle s
  | .halted => .next s

/-- `s` with the instruction whose bits are `w` stored where the next step fetches it. -/
def State.withFetchWord (s : State) (nbits w : Nat) : State := placeInstruction s nbits w

end Sys2Proof.Machine
end

