-- ==== Sys2Proof/Machine/HostPort.lean ====
section
/-! DEFINITION. What the host can do to the machine (70_reset_and_hazards.md R141 to R148) and how it
reads the result (60_exceptions.md R96, R115).  These are moves of the host, not steps of the engine. -/

namespace Sys2Proof.Machine

/-- R96: the numeric code of a cause. -/
def HaltCause.code : HaltCause → Nat
  | .none => 0
  | .halt => 1
  | .unrecognized _ => 2
  | .invalidMode _ _ => 3
  | .immediateWrite _ _ => 4
  | .addressFault _ => 5
  | .overflow _ => 6

/-- R96: codes 3 to 6 are faults. -/
def HaltCause.isFault (c : HaltCause) : Bool := decide (3 ≤ c.code)

/-- R134, R140: `Reset(prog)`; a program longer than the address space is refused, and no engine is
created. -/
def State.load (p : Params) (prog : List Word) : Option State :=
  if prog.length ≤ addrMax + 1 then
    some { State.resetWith p with mem := Memory.writeWords [] 0 prog }
  else none

/-- R142, R146: the host's memory override, `M[a] <- v` in Ready for an address `a`; at any other time
the host has no such move (log entry 13). -/
def State.override (s : State) (a : Nat) (v : Word) : Option State :=
  if s.runState = .ready ∧ a ≤ addrMax then some { s with mem := s.mem.write a v } else none

/-- R144, R148: `execute()`, bounded by fuel; the start of the run and each instruction take one unit.
`none` is the executor's verdict that the fuel ran out, not a state of the core. -/
def execute : Nat → State → Option (State × HaltCause)
  | 0, s => if s.runState = .halted then some (s, s.haltCause) else none
  | n + 1, s =>
    if s.runState = .halted then some (s, s.haltCause)
    else
      match step s with
      | .next t => execute n t
      | .fault _ => none
      | .refused _ => none

/-- R34: what the host can inspect; the display's pending values are hidden (R31). -/
structure Inspection where
  mem : Memory
  pc : Nat
  rb : Word
  runState : RunState
  haltCause : HaltCause
  trace : List Event
  phase : Phase
  grid : Grid
  score : Word
  maxX : Word
  maxY : Word
  paddle : Word × Word
  ball : Word × Word
deriving DecidableEq, Repr

/-- R34, R143: inspection, in Ready and in Halted.
DESIGN CHOICE (log entry 21, unsafe): with PERIPHERAL = generic, for which the spec gives no display to
inspect (R30), the display's fields are shown as the state holds them, the reset display's in every run. -/
def State.inspect (s : State) : Option Inspection :=
  if s.runState = .running then none
  else some
    { mem := s.mem, pc := s.pc, rb := s.rb, runState := s.runState, haltCause := s.haltCause,
      trace := s.trace, phase := s.display.phase, grid := s.display.grid, score := s.display.score,
      maxX := s.display.maxX, maxY := s.display.maxY, paddle := s.display.paddle,
      ball := s.display.ball }

end Sys2Proof.Machine
end

