-- ==== Sys2Proof/Safety.lean ====
section
/-! DEFINITION. The terms claims use: a clean run, the invariants of the machine, and what a slot reads
or targets, said from 30_encoding.md without the machine's own order of checks. -/

namespace Sys2Proof

open Sys2Proof.Machine

/-- R115, R147: the run ended with HLT. -/
abbrev Clean (s : State) : Prop := s.runState = .halted ∧ s.haltCause = .halt

/-- R96, R115: the run ended with a cause other than HLT. -/
abbrev FailedSoft (s : State) : Prop := s.runState = .halted ∧ s.haltCause ≠ .halt

/-- The machine's well-formedness: memory and grid in canonical form, pc an address (R17), and a halt
cause recorded exactly in Halted (R21). -/
structure Inv (s : State) : Prop where
  mem : Memory.wf s.mem
  grid : Grid.wf s.display.grid
  pc : s.pc ≤ addrMax
  cause : s.haltCause = .none ↔ s.runState ≠ .halted

/-- R83, R121, R126: the display after the events of a trace, if every input in it is the control law's
answer at that point. -/
def replay (p : Params) : Display → List Event → Option Display
  | d, [] => some d
  | d, .out v :: es => replay p (d.emitOutput p v) es
  | d, .inp v :: es => if v = d.requestInput then replay p d es else none

/-- R113, R122: with the Arcade Display, replaying the trace from the reset display gives the display. -/
def ArcadeHistory (s : State) : Prop :=
  s.params.peripheral = .arcade →
    replay s.params (Display.reset s.params) s.trace = some s.display

/-- The inputs of a trace, in order. -/
def inputsOf : List Event → List Word
  | [] => []
  | .inp v :: es => v :: inputsOf es
  | .out _ :: es => inputsOf es

/-- The outputs of a trace, in order. -/
def outputsOf : List Event → List Word
  | [] => []
  | .inp _ :: es => outputsOf es
  | .out v :: es => v :: outputsOf es

/-- R84: with the generic peripheral, the inputs received are the draws, each used once, in order. -/
def GenericHistory (s : State) : Prop :=
  s.params.peripheral = .generic → inputsOf s.trace = (List.range s.draws).map Config.draw

/-- R122: the phase of a display that has received `n` values since reset. -/
def phaseAfter (n : Nat) : Phase :=
  if n % 3 = 0 then .expectX else if n % 3 = 1 then .expectY else .expectTile

/-- The addressing mode a mode field stands for under the parameters of `s`, as a relation (R58, R66). -/
def ModeIs (s : State) (f : ModeField) (m : Mode) : Prop :=
  f = .mode m ∨ ((∃ d, f = .invalid d) ∧ s.params.invalidMode = .asPosition ∧ m = .position)

/-- `raw` is the raw operand of slot `i`, whose address exists (R62). -/
def RawIs (s : State) (i : Nat) (raw : Word) : Prop :=
  s.pc + 1 + i ≤ addrMax ∧ raw = s.mem.read (s.pc + 1 + i)

/-- `v` is the read value of slot `i` with mode field `f` (R62, R63, R66). -/
def Reads (s : State) (i : Nat) (f : ModeField) (v : Word) : Prop :=
  ∃ m raw, ModeIs s f m ∧ RawIs s i raw ∧
    match m with
    | .immediate => v = raw
    | .position => inAddr raw.toInt ∧ v = s.mem.read raw.toInt.toNat
    | .relative =>
      inAddr (raw.toInt + s.rb.toInt) ∧ v = s.mem.read (raw.toInt + s.rb.toInt).toNat

/-- `wa` is the write address of slot `i` with mode field `f` (R62, R64, R66, R67). -/
def Targets (s : State) (i : Nat) (f : ModeField) (wa : Nat) : Prop :=
  ∃ m raw, ModeIs s f m ∧ RawIs s i raw ∧
    match m with
    | .position => (wa : Int) = raw.toInt ∧ wa ≤ addrMax
    | .relative => (wa : Int) = raw.toInt + s.rb.toInt ∧ wa ≤ addrMax
    | .immediate =>
      s.params.immWrite = .asPosition ∧ (wa : Int) = raw.toInt ∧ wa ≤ addrMax

/-- Every used slot's mode field stands for a mode, so no InvalidMode arises (R66). -/
def ModesStand (s : State) (i : Instr) : Prop := ∀ f ∈ i.modes, ∃ m, ModeIs s f m

/-- Every used slot before slot `k` has a read value; in each format only the last slot is a write
slot (R61). -/
def EarlierSlotsRead (s : State) (i : Instr) (k : Nat) : Prop :=
  ∀ j f, j < k → i.modes[j]? = some f → ∃ v, Reads s j f v

/-- `a` is the integer that slot `k`, in role `r`, uses as an address, whether or not it is one (R63, R64,
R67). -/
def AddressOf (s : State) (r : Role) (k : Nat) (f : ModeField) (a : Int) : Prop :=
  ∃ m raw, ModeIs s f m ∧ RawIs s k raw ∧
    match m with
    | .position => a = raw.toInt
    | .relative => a = raw.toInt + s.rb.toInt
    | .immediate => r = .write ∧ s.params.immWrite = .asPosition ∧ a = raw.toInt

/-- R66: the mode field a policy of `as_position` makes of an invalid one. -/
def invalidAsPosition : ModeField → ModeField
  | .mode m => .mode m
  | .invalid _ => .mode .position

/-- R76: `r` is the arithmetic result of the exact integer `v`. -/
def ResultIs (s : State) (v : Int) (r : Word) : Prop :=
  (inWord v ∧ r.toInt = v) ∨
    (¬ inWord v ∧ s.params.overflow = .wrap ∧ ∃ k : Int, r.toInt = v + k * 2 ^ 64)

end Sys2Proof
end

