-- ==== Sys2Proof/Certificates/Slice0/Obligations.lean ====
section
/-! DEFINITION. The statements for the provers, taken from the numbered rules of spec/.
`Reads`, `Targets`, `ResultIs` and the other relations are those of Safety.lean. -/

open Sys2Proof Sys2Proof.Machine

/-! ## Encoding -/

/-- R56, R58, R61, R70: decoding the canonical word of a well-formed instruction gives it back. -/
def Obligations.DecodeEncodeRoundTrip : Prop :=
  ∀ i : Instr, i.wellFormed = true → decode (encode i) = .ok i

/-- R56, R65, R70: a decoded instruction is well formed, its word is non-negative, and the word agrees
with the canonical one in the opcode and the used slots' mode digits. -/
def Obligations.DecodeReadsOpcodeAndUsedDigits : Prop :=
  ∀ (w : Word) (i : Instr), decode w = .ok i →
    i.wellFormed = true ∧ 0 ≤ w.toInt ∧
      w.toNat % 10 ^ (2 + i.opcode.slots) = (encode i).toNat

/-- R57: digits at place value 10^5 and above take no part in decoding. -/
def Obligations.HighDigitsTakeNoPart : Prop :=
  (∀ v w : Word, 0 ≤ v.toInt → 0 ≤ w.toInt → v.toNat % 100000 = w.toNat % 100000 →
    decode v = decode w) ∧
  decode 100099 = .ok .hlt

/-- R55 (the spec's decision D3), R59: which words are rejected, and by which name; in Running a negative
word halts with the word recorded and nothing else changed. -/
def Obligations.DecodeRejectsExactly : Prop :=
  (∀ w : Word,
    (decode w = .error .negativeWord ↔ w.toInt < 0) ∧
    (∀ k, decode w = .error (.unrecognisedOpcode k) ↔
      0 ≤ w.toInt ∧ k = w.toNat % 100 ∧ k ∉ [1, 2, 3, 4, 5, 6, 7, 8, 9, 99])) ∧
  (∀ (s : State) (w : Word), s.runState = .running → s.pc ≤ addrMax → s.mem.read s.pc = w →
    w.toInt < 0 → step s = .next { s with runState := .halted, haltCause := .unrecognized w })

/-- R55 (the spec's decision D3), R56, R58, R59, R65: words written out from the encoding decode to the
instruction they stand for, one word of every row, an invalid mode digit and two rejected words; 1002,
21101, 199, 1104, 1077, -1 and 30001 are DEC1, 2, 5, 8, 13, 14 and 16 of 95_test_vectors.md. -/
def Obligations.SampleWordsDecode : Prop :=
  decode 1002 = .ok (.mul (.mode .position) (.mode .immediate) (.mode .position)) ∧
  decode 21101 = .ok (.add (.mode .immediate) (.mode .immediate) (.mode .relative)) ∧
  decode 203 = .ok (.inp (.mode .relative)) ∧
  decode 1104 = .ok (.out (.mode .immediate)) ∧
  decode 1105 = .ok (.jt (.mode .immediate) (.mode .immediate)) ∧
  decode 1206 = .ok (.jf (.mode .relative) (.mode .immediate)) ∧
  decode 1107 = .ok (.lt (.mode .immediate) (.mode .immediate) (.mode .position)) ∧
  decode 20108 = .ok (.eq (.mode .immediate) (.mode .position) (.mode .relative)) ∧
  decode 109 = .ok (.arb (.mode .immediate)) ∧
  decode 199 = .ok .hlt ∧
  decode 30001 = .ok (.add (.mode .position) (.mode .position) (.invalid 3)) ∧
  decode 1077 = .error (.unrecognisedOpcode 77) ∧
  decode (-1) = .error .negativeWord

/-! ## The cycle and the run -/

/-- R74: in Running, a step at an address whose word decodes to `i` is exactly `exec i`. -/
def Obligations.StepRunsDecodedInstruction : Prop :=
  ∀ (s : State) (i : Instr), s.runState = .running → s.pc ≤ addrMax →
    decode (s.mem.read s.pc) = .ok i → step s = exec i s

/-- R59, R98: a non-negative word is an instruction exactly when its opcode is 1 to 9 or 99; in Running,
any other opcode halts with the whole word recorded and nothing else changed. -/
def Obligations.UnrecognisedWordHalts : Prop :=
  (∀ w : Word, 0 ≤ w.toInt →
    ((∃ i : Instr, decode w = .ok i) ↔ w.toNat % 100 ∈ [1, 2, 3, 4, 5, 6, 7, 8, 9, 99])) ∧
  (∀ (s : State) (w : Word), s.runState = .running → s.pc ≤ addrMax → s.mem.read s.pc = w →
    0 ≤ w.toInt → w.toNat % 100 ∉ [1, 2, 3, 4, 5, 6, 7, 8, 9, 99] →
    step s = .next { s with runState := .halted, haltCause := .unrecognized w })

/-- R20, R95, R144: a halted machine stays as it is, however many steps are asked of it. -/
def Obligations.HaltedIsTerminal : Prop :=
  ∀ (n : Nat) (s : State), s.runState = .halted → Host.Core.run core n s = .next s

/-- R20, R144: from Ready a step starts the run and changes nothing else; from Running it goes on or
halts; none leaves Halted. -/
def Obligations.RunStateTransitions : Prop :=
  ∀ s t : State, step s = .next t →
    (s.runState = .ready → t = { s with runState := .running }) ∧
    (s.runState = .running → t.runState = .running ∨ t.runState = .halted) ∧
    (s.runState = .halted → t = s)

/-- R99, R144, R148: nothing is raised out of the engine; every run goes on in a next state, and a run that
halts, for whatever cause, makes `execute()` return with that cause.  The bound of fuel, in which the start
and each instruction take one unit, is the model's (log entries 8, 18). -/
def Obligations.NothingIsRaised : Prop :=
  (∀ (n : Nat) (s : State), ∃ t : State, Host.Core.run core n s = .next t) ∧
  (∀ (n : Nat) (s t : State), Host.Core.run core n s = .next t → t.runState = .halted →
    execute n s = some (t, t.haltCause))

/-- R97: an instruction that ends in a halt has no effect but the halt and its cause. -/
def Obligations.HaltingInstructionHasNoOtherEffect : Prop :=
  ∀ s t : State, s.runState = .running → step s = .next t → t.runState = .halted →
    t.haltCause ≠ .none ∧ t = { s with runState := .halted, haltCause := t.haltCause }

/-- R21: a run writes the halt cause once, at its transition to Halted, and a halted machine keeps it. -/
def Obligations.HaltCauseIsWrittenAtTheHaltOnly : Prop :=
  ∀ s t : State, step s = .next t → t.haltCause ≠ s.haltCause →
    s.runState = .running ∧ t.runState = .halted ∧ t.haltCause ≠ .none

/-- R144, R147: what a fuel-bounded `execute()` returns, and that it changes nothing when halted. -/
def Obligations.ExecuteReturnsTheHaltCause : Prop :=
  (∀ (n : Nat) (s t : State) (c : HaltCause), execute n s = some (t, c) →
    t.runState = .halted ∧ c = t.haltCause ∧ ∃ k, Host.Core.run core k s = .next t) ∧
  (∀ (n : Nat) (s : State), s.runState = .halted → execute n s = some (s, s.haltCause))

/-! ## Invariants -/

/-- R17, R21, R24: every step keeps memory and grid canonical, pc an address, and a cause recorded
exactly in Halted. -/
def Obligations.StepKeepsInv : Prop :=
  ∀ s t : State, Inv s → step s = .next t → Inv t

/-- R30: the reset state meets the invariant. -/
def Obligations.ResetHasInv : Prop := Inv State.reset

/-- R83, R113, R122, R126: with the Arcade Display, every step keeps the display equal to what the trace's
outputs make of the reset display, and every input in the trace the control law's answer there.  The reset
display's pending values and, by default, its positions are the model's choice (log entries 5, 6). -/
def Obligations.StepKeepsArcadeHistory : Prop :=
  ∀ s t : State, ArcadeHistory s → step s = .next t → ArcadeHistory t

/-- R83, R84: with the generic peripheral, every step keeps the trace's inputs equal to the draws made, one
fresh draw an input.  The draws are the free value `Config.draw` (log entry 4): true for every sequence. -/
def Obligations.StepKeepsGenericHistory : Prop :=
  ∀ s t : State, GenericHistory s → step s = .next t → GenericHistory t

/-- R29, R30: both histories hold of a reset machine, under every parameter setting. -/
def Obligations.ResetHasHistories : Prop :=
  ∀ p : Params, ArcadeHistory (State.resetWith p) ∧ GenericHistory (State.resetWith p)

/-- R122: the phase counts the values sent, three to a triple. -/
def Obligations.PhaseCountsOutputs : Prop :=
  ∀ (p : Params) (es : List Event) (d : Display), replay p (Display.reset p) es = some d →
    d.phase = phaseAfter (outputsOf es).length

/-- R6, R29, R32: a step never changes the parameters, and adds at most one event to the trace's end. -/
def Obligations.StepKeepsParamsAndAppendsTrace : Prop :=
  ∀ s t : State, step s = .next t →
    t.params = s.params ∧ (t.trace = s.trace ∨ ∃ e, t.trace = s.trace ++ [e])

/-- R123: the bounds are never decreased. -/
def Obligations.BoundsNeverFall : Prop :=
  ∀ s t : State, step s = .next t →
    s.display.maxX.toInt ≤ t.display.maxX.toInt ∧ s.display.maxY.toInt ≤ t.display.maxY.toInt

/-- R19, R29, R61, R75, R80, R85, R86, R92, R94, R131: which instruction may change which state: only ARB changes rb; only IN and OUT
the trace; only OUT the display; only ADD, MUL, IN, LT and EQ memory. -/
def Obligations.WhoMayChangeWhat : Prop :=
  ∀ (i : Instr) (s t : State), exec i s = .next t →
    (t.rb ≠ s.rb → i.opcode = .arb) ∧
    (t.trace ≠ s.trace → i.opcode = .inp ∨ i.opcode = .out) ∧
    (t.display ≠ s.display → i.opcode = .out) ∧
    (t.mem ≠ s.mem → i.opcode ∈ [.add, .mul, .inp, .lt, .eq])

/-- R117, R131: the display changes only within an OUT; no engine rule reads it, and only the value IN
stores, and records, depends on it: it never stops or faults the engine.  Under two displays the traces an
IN leaves are both the old one, or both the old one and one input, whose value alone may differ. -/
def Obligations.EngineIgnoresDisplay : Prop :=
  ∀ (i : Instr) (s t t' : State) (d : Display),
    exec i s = .next t → exec i { s with display := d } = .next t' →
    t'.pc = t.pc ∧ t'.rb = t.rb ∧ t'.runState = t.runState ∧ t'.haltCause = t.haltCause ∧
    t'.params = t.params ∧ t'.draws = t.draws ∧
    ((∀ m, i ≠ .inp m) → t'.mem = t.mem ∧ t'.trace = t.trace) ∧
    (∀ m, i = .inp m → ∀ x, (∀ wa, storeAddr s 0 m = .ok wa → x ≠ wa) →
      t'.mem.read x = t.mem.read x) ∧
    (∀ m, i = .inp m → (t.trace = s.trace ∧ t'.trace = s.trace) ∨
      ∃ v v', t.trace = s.trace ++ [.inp v] ∧ t'.trace = s.trace ++ [.inp v']) ∧
    (t.display ≠ s.display → i.opcode = .out)

/-- R114: which causes each policy setting can produce, and that Unrecognized, AddressFault and Halt
arise under every setting. -/
def Obligations.PoliciesDecideCauses : Prop :=
  (∀ s t : State, s.runState = .running → step s = .next t → t.runState = .halted →
    (s.params.invalidMode = .asPosition → ∀ w i, t.haltCause ≠ .invalidMode w i) ∧
    (s.params.immWrite = .asPosition → ∀ w i, t.haltCause ≠ .immediateWrite w i) ∧
    (s.params.overflow = .wrap → ∀ w, t.haltCause ≠ .overflow w)) ∧
  (∀ p : Params,
    (∃ s t, s.params = p ∧ s.runState = .running ∧ s.haltCause = .none ∧ step s = .next t ∧
      t.haltCause = .halt) ∧
    (∃ s t w, s.params = p ∧ s.runState = .running ∧ s.haltCause = .none ∧ step s = .next t ∧
      t.haltCause = .unrecognized w) ∧
    (∃ s t a, s.params = p ∧ s.runState = .running ∧ s.haltCause = .none ∧ step s = .next t ∧
      s.pc ≤ addrMax ∧ t.haltCause = .addressFault a))

/-! ## What each instruction does -/

/-- R77: ADD stores the sum and advances by 4. -/
def Obligations.AddStoresSum : Prop :=
  ∀ (m0 m1 m2 : ModeField) (s : State) (a b r : Word) (wa : Nat),
    Reads s 0 m0 a → Reads s 1 m1 b → Targets s 2 m2 wa → ResultIs s (a.toInt + b.toInt) r →
    s.pc + 4 ≤ addrMax →
    exec (.add m0 m1 m2) s = .next { s with mem := s.mem.write wa r, pc := s.pc + 4 }

/-- R78: MUL stores the product and advances by 4. -/
def Obligations.MulStoresProduct : Prop :=
  ∀ (m0 m1 m2 : ModeField) (s : State) (a b r : Word) (wa : Nat),
    Reads s 0 m0 a → Reads s 1 m1 b → Targets s 2 m2 wa → ResultIs s (a.toInt * b.toInt) r →
    s.pc + 4 ≤ addrMax →
    exec (.mul m0 m1 m2) s = .next { s with mem := s.mem.write wa r, pc := s.pc + 4 }

/-- R89, R91: LT stores 1 or 0 by the signed order and advances by 4. -/
def Obligations.LtStoresSignedOrder : Prop :=
  ∀ (m0 m1 m2 : ModeField) (s : State) (a b r : Word) (wa : Nat),
    Reads s 0 m0 a → Reads s 1 m1 b → Targets s 2 m2 wa → s.pc + 4 ≤ addrMax →
    (a.toInt < b.toInt ∧ r = 1 ∨ b.toInt ≤ a.toInt ∧ r = 0) →
    exec (.lt m0 m1 m2) s = .next { s with mem := s.mem.write wa r, pc := s.pc + 4 }

/-- R90, R91: EQ stores 1 or 0 by equality of the whole Word and advances by 4. -/
def Obligations.EqStoresEquality : Prop :=
  ∀ (m0 m1 m2 : ModeField) (s : State) (a b r : Word) (wa : Nat),
    Reads s 0 m0 a → Reads s 1 m1 b → Targets s 2 m2 wa → s.pc + 4 ≤ addrMax →
    (a.toInt = b.toInt ∧ r = 1 ∨ a.toInt ≠ b.toInt ∧ r = 0) →
    exec (.eq m0 m1 m2) s = .next { s with mem := s.mem.write wa r, pc := s.pc + 4 }

/-- R79, R126, R127: with the Arcade Display, IN stores the sign of ball.x - paddle.x, records it and
advances by 2. -/
def Obligations.InStoresControlLaw : Prop :=
  ∀ (m0 : ModeField) (s : State) (v : Word) (wa : Nat),
    s.params.peripheral = .arcade → Targets s 0 m0 wa → s.pc + 2 ≤ addrMax →
    v.toInt = (s.display.ball.1.toInt - s.display.paddle.1.toInt).sign →
    exec (.inp m0) s = .next { s with
      mem := s.mem.write wa v
      trace := s.trace ++ [.inp v]
      pc := s.pc + 2 }

/-- R79, R81, R84: with the generic peripheral, IN stores the next draw (the free value, log entry 4),
records it and advances by 2. -/
def Obligations.InStoresFreshDraw : Prop :=
  ∀ (m0 : ModeField) (s : State) (wa : Nat),
    s.params.peripheral = .generic → Targets s 0 m0 wa → s.pc + 2 ≤ addrMax →
    exec (.inp m0) s = .next { s with
      mem := s.mem.write wa (Config.draw s.draws)
      trace := s.trace ++ [.inp (Config.draw s.draws)]
      draws := s.draws + 1
      pc := s.pc + 2 }

/-- R80, R82, R84: OUT records its operand and advances by 2; with the Arcade Display it also sends the
operand to the display, with the generic peripheral it has no other effect. -/
def Obligations.OutSendsItsOperand : Prop :=
  ∀ (m0 : ModeField) (s : State) (a : Word), Reads s 0 m0 a → s.pc + 2 ≤ addrMax →
    (s.params.peripheral = .arcade → exec (.out m0) s = .next { s with
      display := s.display.emitOutput s.params a
      trace := s.trace ++ [.out a]
      pc := s.pc + 2 }) ∧
    (s.params.peripheral = .generic → exec (.out m0) s = .next { s with
      trace := s.trace ++ [.out a]
      pc := s.pc + 2 })

/-- R85, R87: JT goes to the read value of slot 1 when slot 0 is not 0, else on by 3. -/
def Obligations.JtJumpsIfNonzero : Prop :=
  ∀ (m0 m1 : ModeField) (s : State) (a b : Word), Reads s 0 m0 a → Reads s 1 m1 b →
    (a.toInt ≠ 0 → 0 ≤ b.toInt → exec (.jt m0 m1) s = .next { s with pc := b.toInt.toNat }) ∧
    (a.toInt = 0 → s.pc + 3 ≤ addrMax → exec (.jt m0 m1) s = .next { s with pc := s.pc + 3 })

/-- R86, R87: JF goes to the read value of slot 1 when slot 0 is 0, else on by 3. -/
def Obligations.JfJumpsIfZero : Prop :=
  ∀ (m0 m1 : ModeField) (s : State) (a b : Word), Reads s 0 m0 a → Reads s 1 m1 b →
    (a.toInt = 0 → 0 ≤ b.toInt → exec (.jf m0 m1) s = .next { s with pc := b.toInt.toNat }) ∧
    (a.toInt ≠ 0 → s.pc + 3 ≤ addrMax → exec (.jf m0 m1) s = .next { s with pc := s.pc + 3 })

/-- R92: ARB adds its operand to rb and advances by 2. -/
def Obligations.ArbAdjustsBase : Prop :=
  ∀ (m0 : ModeField) (s : State) (a r : Word),
    Reads s 0 m0 a → ResultIs s (s.rb.toInt + a.toInt) r → s.pc + 2 ≤ addrMax →
    exec (.arb m0) s = .next { s with rb := r, pc := s.pc + 2 }

/-- R94: every word whose opcode is 99 is HLT; it halts with `Halt` and changes nothing else, in every
state, even at the top of memory. -/
def Obligations.HltHalts : Prop :=
  encode .hlt = 99 ∧ Opcode.hlt.length = 1 ∧
  (∀ s : State, exec .hlt s = .next { s with runState := .halted, haltCause := .halt }) ∧
  (∀ w : Word, 0 ≤ w.toInt → w.toNat % 100 = 99 → decode w = .ok .hlt) ∧
  (∀ s : State, s.runState = .running → s.pc ≤ addrMax → 0 ≤ (s.mem.read s.pc).toInt →
    (s.mem.read s.pc).toNat % 100 = 99 →
    step s = .next { s with runState := .halted, haltCause := .halt })

/-- R76: the arithmetic result, and that no instruction but ADD, MUL and ARB can overflow. -/
def Obligations.ArithResultIsExactOrSettledByPolicy : Prop :=
  (∀ (s : State) (v : Int),
    (inWord v → ∃ r : Word, r.toInt = v ∧ arithResult s v = .ok r) ∧
    (¬ inWord v → s.params.overflow = .fault → arithResult s v = .error (.overflow s.word)) ∧
    (¬ inWord v → s.params.overflow = .wrap → arithResult s v = .ok (wrap64 v))) ∧
  (∀ (i : Instr) (s t : State) (w : Word), exec i s = .next t → s.haltCause = .none →
    t.haltCause = .overflow w → i.opcode = .add ∨ i.opcode = .mul ∨ i.opcode = .arb)

/-- R12: `wrap64(v)` is the unique Word congruent to `v` modulo 2^64. -/
def Obligations.WrapIsTheCongruentWord : Prop :=
  ∀ (v : Int) (r : Word), r = wrap64 v ↔ (2 ^ 64 : Int) ∣ r.toInt - v

/-! ## Frames -/

/-- R75, R77, R78, R89, R90: ADD, MUL, LT and EQ leave rb, the trace, the display, the parameters and the
draws as they were, and every address but the one `storeAddr` gives for slot 2; the status changes only
by a halt, which changes nothing else. -/
def Obligations.StoringInstructionsFrame : Prop :=
  ∀ (i : Instr) (m0 m1 m2 : ModeField) (s t : State),
    (i = .add m0 m1 m2 ∨ i = .mul m0 m1 m2 ∨ i = .lt m0 m1 m2 ∨ i = .eq m0 m1 m2) →
    exec i s = .next t →
    t.rb = s.rb ∧ t.trace = s.trace ∧ t.display = s.display ∧ t.params = s.params ∧
    t.draws = s.draws ∧
    (∀ x, (∀ wa, storeAddr s 2 m2 = .ok wa → x ≠ wa) → t.mem.read x = s.mem.read x) ∧
    ((t.runState = s.runState ∧ t.haltCause = s.haltCause) ∨ t = takeHalt s t.haltCause)

/-- R75, R79: IN leaves rb, the display and the parameters as they were, and every address but the one
`storeAddr` gives for slot 0; the trace gains one input, or the instruction halts and changes nothing
else. -/
def Obligations.InputFrame : Prop :=
  ∀ (m0 : ModeField) (s t : State), exec (.inp m0) s = .next t →
    t.rb = s.rb ∧ t.display = s.display ∧ t.params = s.params ∧
    (∀ x, (∀ wa, storeAddr s 0 m0 = .ok wa → x ≠ wa) → t.mem.read x = s.mem.read x) ∧
    ((t.runState = s.runState ∧ t.haltCause = s.haltCause ∧ ∃ v, t.trace = s.trace ++ [.inp v]) ∨
      t = takeHalt s t.haltCause)

/-- R75, R80: OUT leaves memory, rb, the parameters and the draws as they were; the trace gains one
output, or the instruction halts and changes nothing else. -/
def Obligations.OutputFrame : Prop :=
  ∀ (m0 : ModeField) (s t : State), exec (.out m0) s = .next t →
    (∀ x, t.mem.read x = s.mem.read x) ∧ t.rb = s.rb ∧ t.params = s.params ∧ t.draws = s.draws ∧
    ((t.runState = s.runState ∧ t.haltCause = s.haltCause ∧ ∃ v, t.trace = s.trace ++ [.out v]) ∨
      t = takeHalt s t.haltCause)

/-- R75, R85, R86, R92, R94: JT and JF change pc only, ARB rb and pc only, HLT the status only; where one
of the first three halts it changes nothing else; no Word of memory is written by any of them. -/
def Obligations.RegisterOnlyFrame : Prop :=
  ∀ (i : Instr) (s t : State), exec i s = .next t →
    (i.opcode = .jt ∨ i.opcode = .jf → t = { s with pc := t.pc } ∨ t = takeHalt s t.haltCause) ∧
    (i.opcode = .arb → t = { s with rb := t.rb, pc := t.pc } ∨ t = takeHalt s t.haltCause) ∧
    (i.opcode = .hlt → t = takeHalt s .halt) ∧
    (i.opcode ∈ [.jt, .jf, .arb, .hlt] → ∀ x, t.mem.read x = s.mem.read x)

/-! ## Operand forms and faults -/

/-- R10: the address check. -/
def Obligations.AddressCheck : Prop :=
  ∀ a : Int, (inAddr a → addrcheck a = .ok a.toNat) ∧
    (¬ inAddr a → addrcheck a = .error (.addressFault a))

/-- R63: the read value of each mode. -/
def Obligations.ReadValueOfEachMode : Prop :=
  ∀ (s : State) (raw : Word),
    readValue s .immediate raw = .ok raw ∧
    (inAddr raw.toInt → readValue s .position raw = .ok (s.mem.read raw.toInt.toNat)) ∧
    (¬ inAddr raw.toInt → readValue s .position raw = .error (.addressFault raw.toInt)) ∧
    (inAddr (raw.toInt + s.rb.toInt) →
      readValue s .relative raw = .ok (s.mem.read (raw.toInt + s.rb.toInt).toNat)) ∧
    (¬ inAddr (raw.toInt + s.rb.toInt) →
      readValue s .relative raw = .error (.addressFault (raw.toInt + s.rb.toInt)))

/-- R66: under the fault policy the lowest used slot with an invalid mode digit is reported; under
`as_position` such a slot is treated as position. -/
def Obligations.InvalidModeIsReportedOrPosition : Prop :=
  (∀ (i : Instr) (s : State) (k d : Nat), s.params.invalidMode = .fault →
    i.modes[k]? = some (.invalid d) → (∀ j < k, ∃ m, i.modes[j]? = some (.mode m)) →
    exec i s = .next (takeHalt s (.invalidMode s.word k))) ∧
  (∀ (i : Instr) (s : State), s.params.invalidMode = .asPosition →
    exec i s = exec (i.mapModes invalidAsPosition) s)

/-- R67: a write slot in immediate mode is reported under the fault policy, and treated as position under
`as_position`. -/
def Obligations.ImmediateWriteIsReportedOrPosition : Prop :=
  (∀ (m0 m1 : ModeField) (s : State) (a b raw : Word) (i : Instr),
    (i = .add m0 m1 (.mode .immediate) ∨ i = .mul m0 m1 (.mode .immediate) ∨
      i = .lt m0 m1 (.mode .immediate) ∨ i = .eq m0 m1 (.mode .immediate)) →
    s.params.immWrite = .fault → Reads s 0 m0 a → Reads s 1 m1 b → RawIs s 2 raw →
    exec i s = .next (takeHalt s (.immediateWrite s.word 2))) ∧
  (∀ (s : State) (raw : Word), s.params.immWrite = .fault → RawIs s 0 raw →
    exec (.inp (.mode .immediate)) s = .next (takeHalt s (.immediateWrite s.word 0))) ∧
  (∀ (m0 m1 : ModeField) (s : State), s.params.immWrite = .asPosition →
    exec (.add m0 m1 (.mode .immediate)) s = exec (.add m0 m1 (.mode .position)) s ∧
    exec (.mul m0 m1 (.mode .immediate)) s = exec (.mul m0 m1 (.mode .position)) s ∧
    exec (.lt m0 m1 (.mode .immediate)) s = exec (.lt m0 m1 (.mode .position)) s ∧
    exec (.eq m0 m1 (.mode .immediate)) s = exec (.eq m0 m1 (.mode .position)) s ∧
    exec (.inp (.mode .immediate)) s = exec (.inp (.mode .position)) s)

/-- R40, R62, R100: a used slot that lies past the top of memory, the slots before it being readable,
halts any instruction with the slot's own address. -/
def Obligations.SlotPastTheTopFaults : Prop :=
  ∀ (i : Instr) (s : State) (k : Nat), ModesStand s i → k < i.opcode.slots →
    EarlierSlotsRead s i k → addrMax < s.pc + 1 + k →
    exec i s = .next (takeHalt s (.addressFault (s.pc + 1 + k)))

/-- R40, R63, R64, R100: a used slot whose operand or write address is no address, the slots before it
being readable, halts any instruction with that address, whatever the later slots hold. -/
def Obligations.OperandAddressFaults : Prop :=
  ∀ (i : Instr) (s : State) (k : Nat) (r : Role) (f : ModeField) (a : Int), ModesStand s i →
    i.opcode.roles[k]? = some r → i.modes[k]? = some f → EarlierSlotsRead s i k →
    AddressOf s r k f a → ¬ inAddr a →
    exec i s = .next (takeHalt s (.addressFault a))

/-- R76, R77, R78, R92, R100: under the fault policy, ADD, MUL and ARB with readable operands and an exact
result outside the Word range halt with Overflow, even where the next pc would fault too. -/
def Obligations.OverflowFaults : Prop :=
  ∀ (m0 m1 m2 : ModeField) (s : State) (a b : Word) (wa : Nat), s.params.overflow = .fault →
    Reads s 0 m0 a →
    (Reads s 1 m1 b → Targets s 2 m2 wa → ¬ inWord (a.toInt + b.toInt) →
      exec (.add m0 m1 m2) s = .next (takeHalt s (.overflow s.word))) ∧
    (Reads s 1 m1 b → Targets s 2 m2 wa → ¬ inWord (a.toInt * b.toInt) →
      exec (.mul m0 m1 m2) s = .next (takeHalt s (.overflow s.word))) ∧
    (¬ inWord (s.rb.toInt + a.toInt) →
      exec (.arb m0) s = .next (takeHalt s (.overflow s.word)))

/-- R75, R77 to R80, R89, R90, R92: an instruction that would otherwise complete, but whose sequential
advance passes ADDR_MAX, halts with the address past it; no peripheral call is made. -/
def Obligations.AdvancePastTheTopFaults : Prop :=
  (∀ (m0 m1 m2 : ModeField) (s : State) (a b r : Word) (wa : Nat), addrMax < s.pc + 4 →
    Reads s 0 m0 a → Reads s 1 m1 b → Targets s 2 m2 wa →
    (ResultIs s (a.toInt + b.toInt) r →
      exec (.add m0 m1 m2) s = .next (takeHalt s (.addressFault (s.pc + 4)))) ∧
    (ResultIs s (a.toInt * b.toInt) r →
      exec (.mul m0 m1 m2) s = .next (takeHalt s (.addressFault (s.pc + 4)))) ∧
    exec (.lt m0 m1 m2) s = .next (takeHalt s (.addressFault (s.pc + 4))) ∧
    exec (.eq m0 m1 m2) s = .next (takeHalt s (.addressFault (s.pc + 4)))) ∧
  (∀ (m0 : ModeField) (s : State) (a r : Word) (wa : Nat), addrMax < s.pc + 2 →
    (Targets s 0 m0 wa →
      exec (.inp m0) s = .next (takeHalt s (.addressFault (s.pc + 2)))) ∧
    (Reads s 0 m0 a →
      exec (.out m0) s = .next (takeHalt s (.addressFault (s.pc + 2)))) ∧
    (Reads s 0 m0 a → ResultIs s (s.rb.toInt + a.toInt) r →
      exec (.arb m0) s = .next (takeHalt s (.addressFault (s.pc + 2)))))

/-- R85, R86, R87: a taken jump to a negative target halts with that target and has no effect; a jump
not taken faults where, and only where, its advance passes ADDR_MAX, whatever its target. -/
def Obligations.JumpFaults : Prop :=
  ∀ (m0 m1 : ModeField) (s : State) (a b : Word), Reads s 0 m0 a → Reads s 1 m1 b →
    (a.toInt ≠ 0 → b.toInt < 0 →
      exec (.jt m0 m1) s = .next (takeHalt s (.addressFault b.toInt))) ∧
    (a.toInt = 0 → b.toInt < 0 →
      exec (.jf m0 m1) s = .next (takeHalt s (.addressFault b.toInt))) ∧
    (a.toInt = 0 → addrMax < s.pc + 3 →
      exec (.jt m0 m1) s = .next (takeHalt s (.addressFault (s.pc + 3)))) ∧
    (a.toInt ≠ 0 → addrMax < s.pc + 3 →
      exec (.jf m0 m1) s = .next (takeHalt s (.addressFault (s.pc + 3)))) ∧
    (a.toInt = 0 → s.pc + 3 ≤ addrMax → exec (.jt m0 m1) s = .next { s with pc := s.pc + 3 }) ∧
    (a.toInt ≠ 0 → s.pc + 3 ≤ addrMax → exec (.jf m0 m1) s = .next { s with pc := s.pc + 3 })

/-! ## Memory -/

/-- R37: a write sets its address and changes no other. -/
def Obligations.MemoryReadAfterWrite : Prop :=
  ∀ (m : Memory) (a : Nat) (v : Word),
    (m.write a v).read a = v ∧ (∀ x, x ≠ a → (m.write a v).read x = m.read x)

/-- R24, R39: canonical memories that read alike everywhere are the same memory, so which addresses were
written is not observable; and a write keeps the canonical form (the model's own, log entry 1). -/
def Obligations.MemoryIsItsReads : Prop :=
  (∀ m n : Memory, m.wf → n.wf → (∀ a, a ≤ addrMax → m.read a = n.read a) → m = n) ∧
  (∀ (m : Memory) (a : Nat) (v : Word), m.wf → a ≤ addrMax → (m.write a v).wf)

/-- R51, R52: the word ADD stores at pc + 4 is the next instruction. -/
def Obligations.StoreIsSeenByTheNextFetch : Prop :=
  ∀ (m0 m1 m2 : ModeField) (s t : State) (a b r : Word) (j : Instr),
    s.runState = .running → Reads s 0 m0 a → Reads s 1 m1 b → Targets s 2 m2 (s.pc + 4) →
    ResultIs s (a.toInt + b.toInt) r → decode r = .ok j →
    exec (.add m0 m1 m2) s = .next t → step t = exec j t

/-! ## The Arcade Display -/

/-- R121: the three phases of `emitOutput`. -/
def Obligations.EmitOutputPhases : Prop :=
  ∀ (p : Params) (d : Display) (v : Word),
    (d.phase = .expectX → d.emitOutput p v = { d with
      pendX := v
      maxX := if d.maxX.toInt < v.toInt then v else d.maxX
      phase := .expectY }) ∧
    (d.phase = .expectY → d.emitOutput p v = { d with
      pendY := v
      maxY := if d.maxY.toInt < v.toInt then v else d.maxY
      phase := .expectTile }) ∧
    (d.phase = .expectTile → d.pendX.toInt = -1 →
      d.emitOutput p v = { d with score := v, phase := .expectX }) ∧
    (d.phase = .expectTile → d.pendX.toInt ≠ -1 → d.emitOutput p v = { d with
      grid := d.grid.put (d.pendX, d.pendY) v
      ball := if v = p.tileBall then (d.pendX, d.pendY) else d.ball
      paddle := if v = p.tilePaddle then (d.pendX, d.pendY) else d.paddle
      phase := .expectX })

/-- R120: a sentinel triple changes only the score in the ExpectTile phase, whatever its Y and value. -/
def Obligations.SentinelTripleOnlyScores : Prop :=
  ∀ (p : Params) (d : Display) (x y v : Word), d.phase = .expectX → x.toInt = -1 →
    (((d.emitOutput p x).emitOutput p y).emitOutput p v) = { d with
      pendX := x
      pendY := y
      maxX := if d.maxX.toInt < -1 then x else d.maxX
      maxY := if d.maxY.toInt < y.toInt then y else d.maxY
      score := v }

/-- R13, R119: the grid is a finite map: what was placed is found, and no other coordinate changes. -/
def Obligations.GridIsAFiniteMap : Prop :=
  ∀ (g : Grid) (p q : Word × Word) (v : Word),
    (g.put p v).find p = some v ∧ (q ≠ p → (g.put p v).find q = g.find q) ∧
    (g.wf → (g.put p v).wf) ∧ Grid.find [] p = none

/-- R126: the control law, and that the call leaves the display unchanged. -/
def Obligations.ControlLawTracksTheBall : Prop :=
  (∀ d : Display,
    (d.paddle.1.toInt < d.ball.1.toInt → d.requestInput = 1) ∧
    (d.ball.1.toInt < d.paddle.1.toInt → d.requestInput = -1) ∧
    (d.paddle.1.toInt = d.ball.1.toInt → d.requestInput = 0)) ∧
  (∀ (m : ModeField) (s t : State), exec (.inp m) s = .next t → t.display = s.display)

/-! ## Reset and the host -/

/-- R30: the reset values the spec gives, at the model's reset state (whose parameters are the spec's
defaults, and whose empty program is the model's choice, log entries 7 and 8). -/
def Obligations.ResetValues : Prop :=
  State.reset.pc = 0 ∧ State.reset.rb = 0 ∧ State.reset.runState = .ready ∧
  State.reset.haltCause = .none ∧ State.reset.trace = [] ∧
  State.reset.display.phase = .expectX ∧ State.reset.display.grid = [] ∧
  State.reset.display.score = 0 ∧ State.reset.display.maxX = 0 ∧ State.reset.display.maxY = 0 ∧
  (∀ a, State.reset.mem.read a = 0)

/-- R134 (the spec's decision D35), R140: the reset procedure with a program of length N: refused if too
long, else memory holds the program and 0 elsewhere and every register its reset value, under every
parameter setting.  That the parameters stand in the state, and the canonical forms in `Inv`, are the
model's (log entries 1, 3, 16). -/
def Obligations.ResetLoadsProgram : Prop :=
  ∀ (p : Params) (prog : List Word),
    (State.load p prog = none ↔ addrMax + 1 < prog.length) ∧
    (∀ s, State.load p prog = some s →
      (∀ a, s.mem.read a = prog.getD a 0) ∧ Inv s ∧
      s.pc = 0 ∧ s.rb = 0 ∧ s.runState = .ready ∧ s.haltCause = .none ∧ s.trace = [] ∧
      s.params = p ∧
      (p.peripheral = .arcade →
        s.display.phase = .expectX ∧ s.display.grid = [] ∧ s.display.score = 0 ∧
        s.display.maxX = 0 ∧ s.display.maxY = 0 ∧ s.display.paddle = p.resetPaddle ∧
        s.display.ball = p.resetBall))

/-- R142, R143, R146: the host overrides memory in Ready only, at an address, and inspects in Ready and
Halted only. -/
def Obligations.HostMoves : Prop :=
  (∀ (s : State) (a : Nat) (v : Word), s.runState = .ready → a ≤ addrMax →
    s.override a v = some { s with mem := s.mem.write a v }) ∧
  (∀ (s : State) (a : Nat) (v : Word), s.runState ≠ .ready ∨ addrMax < a → s.override a v = none) ∧
  (∀ s : State, s.inspect = none ↔ s.runState = .running)
end

