-- ==== Sys2Proof/Laws/Cells.lean ====
section
/-! SUPPORT. The laws of the canonical cell lists: what is found after a put or a drop, and that both keep
the ranks strictly rising. -/

namespace Sys2Proof.Machine

variable {κ : Type} {rank : κ → Nat}

theorem cellsFind_put_same (key : κ) (v : Word) (cs : List (κ × Word)) :
    cellsFind rank (rank key) (cellsPut rank key v cs) = some v := by
  induction cs with
  | nil => simp [cellsPut, cellsFind]
  | cons c cs ih =>
    unfold cellsPut
    split_ifs with h1 h2
    · simp [cellsFind]
    · simp [cellsFind]
    · simp [cellsFind, ih, Ne.symm h2]

theorem cellsFind_put_other {key : κ} {k : Nat} (h : k ≠ rank key) (v : Word) (cs : List (κ × Word)) :
    cellsFind rank k (cellsPut rank key v cs) = cellsFind rank k cs := by
  induction cs with
  | nil => simp [cellsPut, cellsFind, Ne.symm h]
  | cons c cs ih =>
    unfold cellsPut
    split_ifs with h1 h2
    · simp [cellsFind, Ne.symm h]
    · have : rank c.1 ≠ k := fun e => h (by rw [← e, h2])
      simp [cellsFind, Ne.symm h, this]
    · simp [cellsFind, ih]

theorem cellsFind_drop_same (k : Nat) (cs : List (κ × Word)) :
    cellsFind rank k (cellsDrop rank k cs) = none := by
  induction cs with
  | nil => rfl
  | cons c cs ih =>
    by_cases h : rank c.1 = k
    · simpa [cellsDrop, h] using ih
    · have : cellsDrop rank k (c :: cs) = c :: cellsDrop rank k cs := by simp [cellsDrop, h]
      simp [this, cellsFind, h, ih]

theorem cellsFind_drop_other {k j : Nat} (h : k ≠ j) (cs : List (κ × Word)) :
    cellsFind rank k (cellsDrop rank j cs) = cellsFind rank k cs := by
  induction cs with
  | nil => rfl
  | cons c cs ih =>
    by_cases hc : rank c.1 = j
    · have h' : rank c.1 ≠ k := fun e => h (e.symm.trans hc)
      have : cellsDrop rank j (c :: cs) = cellsDrop rank j cs := by simp [cellsDrop, hc]
      simp [this, cellsFind, h', ih]
    · have : cellsDrop rank j (c :: cs) = c :: cellsDrop rank j cs := by simp [cellsDrop, hc]
      simp [this, cellsFind, ih]

theorem cellsFind_eq_none {k : Nat} {cs : List (κ × Word)} (h : ∀ c ∈ cs, rank c.1 ≠ k) :
    cellsFind rank k cs = none := by
  induction cs with
  | nil => rfl
  | cons c cs ih =>
    have hc := h c (by simp)
    simp only [cellsFind, hc, if_false]
    exact ih fun d hd => h d (by simp [hd])

theorem mem_of_cellsFind {k : Nat} {v : Word} {cs : List (κ × Word)}
    (h : cellsFind rank k cs = some v) : ∃ c ∈ cs, rank c.1 = k ∧ c.2 = v := by
  induction cs with
  | nil => simp [cellsFind] at h
  | cons c cs ih =>
    unfold cellsFind at h
    split_ifs at h with hc
    · exact ⟨c, by simp, hc, by simpa using h⟩
    · obtain ⟨d, hd, e⟩ := ih h
      exact ⟨d, by simp [hd], e⟩

theorem mem_cellsPut {key : κ} {v : Word} {cs : List (κ × Word)} {c : κ × Word}
    (h : c ∈ cellsPut rank key v cs) : c = (key, v) ∨ c ∈ cs := by
  induction cs with
  | nil => simpa [cellsPut] using h
  | cons d cs ih =>
    unfold cellsPut at h
    split_ifs at h with h1 h2
    · simpa using h
    · rcases List.mem_cons.1 h with h | h
      · exact .inl h
      · exact .inr (by simp [h])
    · rcases List.mem_cons.1 h with h | h
      · exact .inr (by simp [h])
      · rcases ih h with h | h
        · exact .inl h
        · exact .inr (by simp [h])

theorem mem_cellsDrop {k : Nat} {cs : List (κ × Word)} {c : κ × Word}
    (h : c ∈ cellsDrop rank k cs) : c ∈ cs := List.mem_of_mem_filter h

theorem cellsPut_rising (key : κ) (v : Word) {cs : List (κ × Word)} (h : cellsRising rank cs) :
    cellsRising rank (cellsPut rank key v cs) := by
  induction cs with
  | nil => simp [cellsPut, cellsRising]
  | cons c cs ih =>
    obtain ⟨hc, hcs⟩ := List.pairwise_cons.1 h
    unfold cellsPut
    split_ifs with h1 h2
    · refine List.pairwise_cons.2 ⟨fun d hd => ?_, h⟩
      rcases List.mem_cons.1 hd with rfl | hd
      · exact h1
      · exact h1.trans (hc d hd)
    · exact List.pairwise_cons.2 ⟨fun d hd => by simpa [h2] using hc d hd, hcs⟩
    · refine List.pairwise_cons.2 ⟨fun d hd => ?_, ih hcs⟩
      rcases mem_cellsPut hd with rfl | hd
      · exact lt_of_le_of_ne (not_lt.1 h1) (Ne.symm h2)
      · exact hc d hd

theorem cellsDrop_rising (k : Nat) {cs : List (κ × Word)} (h : cellsRising rank cs) :
    cellsRising rank (cellsDrop rank k cs) := List.Pairwise.filter _ h

end Sys2Proof.Machine
end

