-- ==== Sys2Proof/Laws/Decode.lean ====
section
/-! SUPPORT. The decoder's own small lemmas. -/

namespace Sys2Proof

@[simp] theorem build_opcode (o : Opcode) (m0 m1 m2 : ModeField) : (o.build m0 m1 m2).opcode = o := by
  cases o <;> rfl

/-- R58: a digit read back from the mode it stands for. -/
@[simp] theorem modeOfDigit_digit (d : Nat) : (modeOfDigit d).digit = d := by
  unfold modeOfDigit; split <;> rfl

/-- R58: the mode of a well-formed field's digit. -/
@[simp] theorem modeOfDigit_of_wellFormed {f : ModeField} (h : f.wellFormed = true) :
    modeOfDigit f.digit = f := by
  cases f with
  | mode m => cases m <;> rfl
  | invalid d =>
    simp only [ModeField.wellFormed, Bool.and_eq_true, decide_eq_true_eq] at h
    simp only [ModeField.digit]
    unfold modeOfDigit
    split <;> first | omega | rfl

theorem digit_lt_ten (n k : Nat) : digit n k < 10 := Nat.mod_lt _ (by decide)

/-- R8: one more decimal digit of a number. -/
theorem mod_ten_pow_succ (n k : Nat) : n % 10 ^ (k + 1) = n % 10 ^ k + 10 ^ k * digit n k := by
  rw [pow_succ, Nat.mod_mul, digit]

/-- R56: the five low digits of a number, by field. -/
theorem mod_1000 (n : Nat) : n % 1000 = n % 100 + 100 * digit n 2 := mod_ten_pow_succ n 2

theorem mod_10000 (n : Nat) : n % 10000 = n % 1000 + 1000 * digit n 3 := mod_ten_pow_succ n 3

theorem mod_100000 (n : Nat) : n % 100000 = n % 10000 + 10000 * digit n 4 := mod_ten_pow_succ n 4

theorem modeOfDigit_wellFormed {d : Nat} (h : d < 10) : (modeOfDigit d).wellFormed = true := by
  interval_cases d <;> rfl

theorem digit_le_nine {f : ModeField} (h : f.wellFormed = true) : f.digit ≤ 9 := by
  cases f with
  | mode m => cases m <;> decide
  | invalid d =>
    simp only [ModeField.wellFormed, Bool.and_eq_true, decide_eq_true_eq] at h
    exact h.2

/-- R59, R73: which row an opcode number selects. -/
theorem opcodeOf_eq_some_iff (n : Nat) (o : Opcode) : opcodeOf n = some o ↔ n % 100 = o.code := by
  have hlt : n % 100 < 100 := Nat.mod_lt _ (by decide)
  unfold opcodeOf
  generalize n % 100 = k at *
  constructor
  · intro h
    have := List.find?_some h
    exact (beq_iff_eq.1 this).symm
  · rintro rfl
    cases o <;> rfl

theorem opcodeOf_eq_none_iff (n : Nat) :
    opcodeOf n = none ↔ n % 100 ∉ [1, 2, 3, 4, 5, 6, 7, 8, 9, 99] := by
  have h := opcodeOf_eq_some_iff n
  constructor
  · intro e hm
    have key : ∀ o : Opcode, n % 100 ≠ o.code := fun o ho => by
      have := (h o).2 ho
      rw [e] at this
      cases this
    simp only [List.mem_cons, List.not_mem_nil, or_false] at hm
    rcases hm with k | k | k | k | k | k | k | k | k | k
    · exact key .add k
    · exact key .mul k
    · exact key .inp k
    · exact key .out k
    · exact key .jt k
    · exact key .jf k
    · exact key .lt k
    · exact key .eq k
    · exact key .arb k
    · exact key .hlt k
  · intro hn
    cases e : opcodeOf n with
    | none => rfl
    | some o =>
      have := (h o).1 e
      rw [this] at hn
      cases o <;> simp [Opcode.code] at hn

/-- R55: a Word is negative or its signed and unsigned readings agree. -/
theorem toInt_nonneg_iff (w : Word) : 0 ≤ w.toInt ↔ w.toNat < 2 ^ 63 := by
  have := w.isLt
  rw [BitVec.toInt_eq_toNat_cond]; split_ifs <;> omega

theorem toInt_of_nonneg {w : Word} (h : 0 ≤ w.toInt) : w.toInt = w.toNat := by
  have := (toInt_nonneg_iff w).1 h
  rw [BitVec.toInt_eq_toNat_cond, if_pos (by omega)]

end Sys2Proof
end

