-- ==== Sys2Proof/Laws/State.lean ====
section
/-! SUPPORT. What each named update of State leaves in each field, so that no later proof unfolds one. -/

namespace Sys2Proof.Machine

/-! R97 -/

@[simp] theorem takeHalt_mem (s : State) (c : HaltCause) :
    (takeHalt s c).mem = s.mem := rfl

@[simp] theorem takeHalt_pc (s : State) (c : HaltCause) :
    (takeHalt s c).pc = s.pc := rfl

@[simp] theorem takeHalt_rb (s : State) (c : HaltCause) :
    (takeHalt s c).rb = s.rb := rfl

@[simp] theorem takeHalt_runState (s : State) (c : HaltCause) :
    (takeHalt s c).runState = .halted := rfl

@[simp] theorem takeHalt_haltCause (s : State) (c : HaltCause) :
    (takeHalt s c).haltCause = c := rfl

@[simp] theorem takeHalt_display (s : State) (c : HaltCause) :
    (takeHalt s c).display = s.display := rfl

@[simp] theorem takeHalt_trace (s : State) (c : HaltCause) :
    (takeHalt s c).trace = s.trace := rfl

@[simp] theorem takeHalt_params (s : State) (c : HaltCause) :
    (takeHalt s c).params = s.params := rfl

@[simp] theorem takeHalt_draws (s : State) (c : HaltCause) :
    (takeHalt s c).draws = s.draws := rfl

/-! R144 -/

@[simp] theorem start_mem (s : State) :
    (s.start).mem = s.mem := rfl

@[simp] theorem start_pc (s : State) :
    (s.start).pc = s.pc := rfl

@[simp] theorem start_rb (s : State) :
    (s.start).rb = s.rb := rfl

@[simp] theorem start_runState (s : State) :
    (s.start).runState = .running := rfl

@[simp] theorem start_haltCause (s : State) :
    (s.start).haltCause = s.haltCause := rfl

@[simp] theorem start_display (s : State) :
    (s.start).display = s.display := rfl

@[simp] theorem start_trace (s : State) :
    (s.start).trace = s.trace := rfl

@[simp] theorem start_params (s : State) :
    (s.start).params = s.params := rfl

@[simp] theorem start_draws (s : State) :
    (s.start).draws = s.draws := rfl

/-! R75 -/

@[simp] theorem commit_mem (s : State) (u : Update) (npc : Nat) :
    (commit s u npc).mem = u.applyStore s.mem := rfl

@[simp] theorem commit_pc (s : State) (u : Update) (npc : Nat) :
    (commit s u npc).pc = npc := rfl

@[simp] theorem commit_rb (s : State) (u : Update) (npc : Nat) :
    (commit s u npc).rb = u.base.getD s.rb := rfl

@[simp] theorem commit_runState (s : State) (u : Update) (npc : Nat) :
    (commit s u npc).runState = s.runState := rfl

@[simp] theorem commit_haltCause (s : State) (u : Update) (npc : Nat) :
    (commit s u npc).haltCause = s.haltCause := rfl

@[simp] theorem commit_display (s : State) (u : Update) (npc : Nat) :
    (commit s u npc).display = s.display := rfl

@[simp] theorem commit_trace (s : State) (u : Update) (npc : Nat) :
    (commit s u npc).trace = s.trace ++ u.event.toList := rfl

@[simp] theorem commit_params (s : State) (u : Update) (npc : Nat) :
    (commit s u npc).params = s.params := rfl

@[simp] theorem commit_draws (s : State) (u : Update) (npc : Nat) :
    (commit s u npc).draws = s.draws := rfl

/-! R82 -/

@[simp] theorem emitOutput_mem (s : State) (v : Word) :
    (emitOutput s v).mem = s.mem := by
  unfold emitOutput; split <;> rfl

@[simp] theorem emitOutput_pc (s : State) (v : Word) :
    (emitOutput s v).pc = s.pc := by
  unfold emitOutput; split <;> rfl

@[simp] theorem emitOutput_rb (s : State) (v : Word) :
    (emitOutput s v).rb = s.rb := by
  unfold emitOutput; split <;> rfl

@[simp] theorem emitOutput_runState (s : State) (v : Word) :
    (emitOutput s v).runState = s.runState := by
  unfold emitOutput; split <;> rfl

@[simp] theorem emitOutput_haltCause (s : State) (v : Word) :
    (emitOutput s v).haltCause = s.haltCause := by
  unfold emitOutput; split <;> rfl

@[simp] theorem emitOutput_trace (s : State) (v : Word) :
    (emitOutput s v).trace = s.trace := by
  unfold emitOutput; split <;> rfl

@[simp] theorem emitOutput_params (s : State) (v : Word) :
    (emitOutput s v).params = s.params := by
  unfold emitOutput; split <;> rfl

@[simp] theorem emitOutput_draws (s : State) (v : Word) :
    (emitOutput s v).draws = s.draws := by
  unfold emitOutput; split <;> rfl

@[simp] theorem emitOutput_display_arcade {s : State} (h : s.params.peripheral = .arcade) (v : Word) :
    (emitOutput s v).display = s.display.emitOutput s.params v := by
  simp [emitOutput, h]

@[simp] theorem emitOutput_generic {s : State} (h : s.params.peripheral = .generic) (v : Word) :
    emitOutput s v = s := by
  simp [emitOutput, h]

/-! R82, R126 -/

@[simp] theorem afterInput_mem (s : State) :
    (afterInput s).mem = s.mem := by
  unfold afterInput; split <;> rfl

@[simp] theorem afterInput_pc (s : State) :
    (afterInput s).pc = s.pc := by
  unfold afterInput; split <;> rfl

@[simp] theorem afterInput_rb (s : State) :
    (afterInput s).rb = s.rb := by
  unfold afterInput; split <;> rfl

@[simp] theorem afterInput_runState (s : State) :
    (afterInput s).runState = s.runState := by
  unfold afterInput; split <;> rfl

@[simp] theorem afterInput_haltCause (s : State) :
    (afterInput s).haltCause = s.haltCause := by
  unfold afterInput; split <;> rfl

@[simp] theorem afterInput_display (s : State) :
    (afterInput s).display = s.display := by
  unfold afterInput; split <;> rfl

@[simp] theorem afterInput_trace (s : State) :
    (afterInput s).trace = s.trace := by
  unfold afterInput; split <;> rfl

@[simp] theorem afterInput_params (s : State) :
    (afterInput s).params = s.params := by
  unfold afterInput; split <;> rfl

@[simp] theorem afterInput_arcade {s : State} (h : s.params.peripheral = .arcade) :
    afterInput s = s := by
  simp [afterInput, h]

@[simp] theorem afterInput_draws_generic {s : State} (h : s.params.peripheral = .generic) :
    (afterInput s).draws = s.draws + 1 := by
  simp [afterInput, h]

@[simp] theorem inputValue_arcade {s : State} (h : s.params.peripheral = .arcade) :
    inputValue s = s.display.requestInput := by
  simp [inputValue, h]

@[simp] theorem inputValue_generic {s : State} (h : s.params.peripheral = .generic) :
    inputValue s = Config.draw s.draws := by
  simp [inputValue, h]

/-! Placing an instruction -/

@[simp] theorem placeInstruction_mem (s : State) (nbits w : Nat) :
    (placeInstruction s nbits w).mem = s.mem.writeWords s.pc (wordsOfBits nbits w) := rfl

@[simp] theorem placeInstruction_pc (s : State) (nbits w : Nat) :
    (placeInstruction s nbits w).pc = s.pc := rfl

@[simp] theorem placeInstruction_rb (s : State) (nbits w : Nat) :
    (placeInstruction s nbits w).rb = s.rb := rfl

@[simp] theorem placeInstruction_runState (s : State) (nbits w : Nat) :
    (placeInstruction s nbits w).runState = .running := rfl

@[simp] theorem placeInstruction_haltCause (s : State) (nbits w : Nat) :
    (placeInstruction s nbits w).haltCause = s.haltCause := rfl

@[simp] theorem placeInstruction_display (s : State) (nbits w : Nat) :
    (placeInstruction s nbits w).display = s.display := rfl

@[simp] theorem placeInstruction_trace (s : State) (nbits w : Nat) :
    (placeInstruction s nbits w).trace = s.trace := rfl

@[simp] theorem placeInstruction_params (s : State) (nbits w : Nat) :
    (placeInstruction s nbits w).params = s.params := rfl

@[simp] theorem placeInstruction_draws (s : State) (nbits w : Nat) :
    (placeInstruction s nbits w).draws = s.draws := rfl

@[simp] theorem applyStore_none (m : Memory) (b : Option Word) (e : Option Event) :
    ({ store := none, base := b, event := e } : Update).applyStore m = m := rfl

@[simp] theorem applyStore_some (m : Memory) (a : Nat) (v : Word) (b : Option Word) (e : Option Event) :
    ({ store := some (a, v), base := b, event := e } : Update).applyStore m = m.write a v := rfl

end Sys2Proof.Machine
end

