-- ==== Sys2Proof/Laws/Memory.lean ====
section
/-! SUPPORT. The laws of memory (R36 to R38) and of the grid (R13, R119): every operation on them keeps
the canonical form. -/

namespace Sys2Proof.Machine

@[simp] theorem read_nil (a : Nat) : Memory.read [] a = 0 := rfl

@[simp] theorem read_write_same (m : Memory) (a : Nat) (v : Word) :
    (Memory.write m a v).read a = v := by
  unfold Memory.write Memory.read
  split_ifs with h
  · rw [cellsFind_drop_same, h]; rfl
  · rw [show cellsFind id a (cellsPut id a v m) = some v from cellsFind_put_same (rank := id) a v m]; rfl

theorem read_write_other (m : Memory) {a x : Nat} (v : Word) (h : x ≠ a) :
    (Memory.write m a v).read x = m.read x := by
  unfold Memory.write Memory.read
  split_ifs
  · rw [cellsFind_drop_other h]
  · rw [cellsFind_put_other (by simpa using h)]

theorem read_write (m : Memory) (a x : Nat) (v : Word) :
    (Memory.write m a v).read x = if x = a then v else m.read x := by
  split_ifs with h
  · subst h; simp
  · exact read_write_other m v h

theorem nil_wf : Memory.wf [] := ⟨List.Pairwise.nil, by simp⟩

/-- A write to an address keeps the canonical form. -/
theorem write_wf {m : Memory} (hm : m.wf) {a : Nat} (ha : a ≤ addrMax) (v : Word) :
    (Memory.write m a v).wf := by
  unfold Memory.write
  split_ifs with h
  · exact ⟨cellsDrop_rising a hm.1, fun c hc => hm.2 c (mem_cellsDrop hc)⟩
  · refine ⟨cellsPut_rising a v hm.1, fun c hc => ?_⟩
    rcases mem_cellsPut hc with rfl | hc
    · exact ⟨ha, h⟩
    · exact hm.2 c hc

theorem writeWords_wf (ws : List Word) {m : Memory} (hm : m.wf) (a : Nat) :
    (Memory.writeWords m a ws).wf := by
  induction ws generalizing m a with
  | nil => exact hm
  | cons w ws ih =>
    unfold Memory.writeWords
    split_ifs with h
    · exact ih (write_wf hm h w) _
    · exact hm

/-- R133: what an address holds after Words are written at consecutive addresses. -/
theorem read_writeWords (ws : List Word) (m : Memory) (a x : Nat) (h : a + ws.length ≤ addrMax + 1) :
    (Memory.writeWords m a ws).read x =
      if a ≤ x then (ws[x - a]?).getD (m.read x) else m.read x := by
  induction ws generalizing m a with
  | nil => simp [Memory.writeWords]
  | cons w ws ih =>
    simp only [List.length_cons] at h
    have ha : a ≤ addrMax := by omega
    rw [Memory.writeWords, if_pos ha, ih _ _ (by omega), read_write]
    rcases lt_trichotomy x a with hx | rfl | hx
    · simp [show ¬a + 1 ≤ x by omega, show x ≠ a by omega, show ¬a ≤ x by omega]
    · simp
    · simp [show a + 1 ≤ x by omega, show x ≠ a by omega, show a ≤ x by omega,
        show x - a = (x - (a + 1)) + 1 by omega]

theorem gridRank_injective {p q : Word × Word} (h : gridRank p = gridRank q) : p = q := by
  unfold gridRank at h
  have h1 := p.1.isLt; have h2 := p.2.isLt; have h3 := q.1.isLt; have h4 := q.2.isLt
  exact Prod.ext (BitVec.eq_of_toNat_eq (by omega)) (BitVec.eq_of_toNat_eq (by omega))

@[simp] theorem grid_find_put_same (g : Grid) (p : Word × Word) (v : Word) :
    (Grid.put g p v).find p = some v := cellsFind_put_same p v g

theorem grid_find_put_other (g : Grid) {p q : Word × Word} (v : Word) (h : q ≠ p) :
    (Grid.put g p v).find q = g.find q :=
  cellsFind_put_other (fun e => h (gridRank_injective e)) v g

theorem grid_put_wf {g : Grid} (h : g.wf) (p : Word × Word) (v : Word) : (Grid.put g p v).wf :=
  cellsPut_rising p v h

/-- R121: the display keeps its grid in canonical form. -/
theorem emitOutput_grid_wf (pr : Params) {d : Display} (h : d.grid.wf) (v : Word) :
    (d.emitOutput pr v).grid.wf := by
  unfold Display.emitOutput Display.finishTriple Display.place
  split
  · exact h
  · exact h
  · split_ifs
    · exact h
    all_goals exact grid_put_wf h _ v

/-- R123: a bound never falls. -/
theorem le_raiseBound (b v : Word) : b.toInt ≤ (raiseBound b v).toInt := by
  unfold raiseBound; split_ifs <;> omega

end Sys2Proof.Machine
end

