-- ==== Sys2Proof/Laws/Operands.lean ====
section
/-! SUPPORT. Everything the operand functions can answer: each resolves exactly when its relation of
Safety.lean holds, and each failure carries a cause that the parameters allow. -/

namespace Sys2Proof.Machine

theorem bind_ok_iff {α β : Type} {x : Except HaltCause α} {f : α → Except HaltCause β} {b : β} :
    (x >>= f) = .ok b ↔ ∃ a, x = .ok a ∧ f a = .ok b := by
  cases x <;> simp [bind, Except.bind]

theorem bind_error_iff {α β : Type} {x : Except HaltCause α} {f : α → Except HaltCause β}
    {c : HaltCause} :
    (x >>= f) = .error c ↔ x = .error c ∨ ∃ a, x = .ok a ∧ f a = .error c := by
  cases x <;> simp [bind, Except.bind]

@[simp] theorem pure_eq_ok {α : Type} (a : α) : (pure a : Except HaltCause α) = .ok a := (rfl)

@[simp] theorem ok_bind {α β : Type} (a : α) (f : α → Except HaltCause β) :
    ((Except.ok a : Except HaltCause α) >>= f) = f a := (rfl)

@[simp] theorem error_bind {α β : Type} (c : HaltCause) (f : α → Except HaltCause β) :
    ((Except.error c : Except HaltCause α) >>= f) = .error c := (rfl)

/-- R7: an address is a natural number up to ADDR_MAX. -/
theorem inAddr_iff {a : Int} : inAddr a ↔ ∃ n : Nat, a = n ∧ n ≤ addrMax := by
  simp only [inAddr, addrMax]
  constructor
  · rintro ⟨h1, h2⟩
    exact ⟨a.toNat, by omega, by omega⟩
  · rintro ⟨n, rfl, h⟩
    exact ⟨by omega, by omega⟩

theorem addrcheck_nat {n : Nat} (h : n ≤ addrMax) : addrcheck (n : Int) = .ok n := if_pos h

theorem addrcheck_ok {a : Int} (h : inAddr a) : addrcheck a = .ok a.toNat := by
  obtain ⟨n, rfl, hn⟩ := inAddr_iff.1 h
  exact addrcheck_nat hn

theorem addrcheck_error {a : Int} (h : ¬ inAddr a) : addrcheck a = .error (.addressFault a) := by
  unfold addrcheck
  split
  · rename_i n
    exact if_neg fun hn => h (inAddr_iff.2 ⟨n, rfl, hn⟩)
  · rfl

theorem addrcheck_ok_iff {a : Int} {n : Nat} :
    addrcheck a = .ok n ↔ (n : Int) = a ∧ n ≤ addrMax := by
  by_cases h : inAddr a
  · obtain ⟨m, rfl, hm⟩ := inAddr_iff.1 h
    rw [addrcheck_nat hm, Except.ok.injEq]
    omega
  · rw [addrcheck_error h]
    refine ⟨(fun e => by cases e), ?_⟩
    rintro ⟨rfl, hn⟩
    exact absurd (inAddr_iff.2 ⟨n, rfl, hn⟩) h

theorem addrcheck_error_iff {a : Int} {c : HaltCause} :
    addrcheck a = .error c ↔ ¬ inAddr a ∧ c = .addressFault a := by
  by_cases h : inAddr a
  · rw [addrcheck_ok h]
    exact ⟨(fun e => by cases e), fun e => absurd h e.1⟩
  · rw [addrcheck_error h]
    exact ⟨fun e => ⟨h, (Except.error.inj e).symm⟩, fun e => by rw [e.2]⟩

theorem slotMode_ok_iff {s : State} {i : Nat} {f : ModeField} {m : Mode} :
    slotMode s i f = .ok m ↔ ModeIs s f m := by
  unfold slotMode ModeIs
  cases f with
  | mode k => simp
  | invalid d => cases h : s.params.invalidMode <;> simp [eq_comm]

theorem rawOperand_ok_iff {s : State} {i : Nat} {raw : Word} :
    rawOperand s i = .ok raw ↔ RawIs s i raw := by
  unfold rawOperand RawIs
  simp only [bind_ok_iff, addrcheck_ok_iff, pure_eq_ok, Except.ok.injEq]
  constructor
  · rintro ⟨a, ⟨h1, h2⟩, rfl⟩
    obtain rfl : a = s.pc + 1 + i := by omega
    exact ⟨h2, rfl⟩
  · rintro ⟨h, rfl⟩
    exact ⟨_, ⟨by omega, h⟩, rfl⟩

/-- R62: a slot past the top of memory faults with its own address. -/
theorem rawOperand_error {s : State} {i : Nat} (h : addrMax < s.pc + 1 + i) :
    rawOperand s i = .error (.addressFault (s.pc + 1 + i)) := by
  unfold rawOperand
  rw [addrcheck_error]
  · rfl
  · simp only [inAddr, addrMax] at h ⊢; omega

/-- R62, R63, R66: slot `i` has read value `v`. -/
theorem slot_reads_iff {s : State} {i : Nat} {f : ModeField} {v : Word} :
    Reads s i f v ↔ ∃ m, slotMode s i f = .ok m ∧ readSlot s i m = .ok v := by
  simp only [Reads, slotMode_ok_iff, readSlot, bind_ok_iff, rawOperand_ok_iff, exists_and_left]
  refine exists_congr fun m => and_congr_right fun _ => exists_congr fun raw => and_congr_right fun _ => ?_
  cases m
  · simp only [readValue, bind_ok_iff, addrcheck_ok_iff, pure_eq_ok, Except.ok.injEq]
    constructor
    · rintro ⟨h, rfl⟩
      exact ⟨_, by simp only [inAddr, addrMax] at h ⊢; omega, rfl⟩
    · rintro ⟨a, ⟨h1, h2⟩, rfl⟩
      simp only [← h1, inAddr, addrMax, Int.toNat_natCast, and_true] at h2 ⊢
      omega
  · simp [readValue, eq_comm]
  · simp only [readValue, bind_ok_iff, addrcheck_ok_iff, pure_eq_ok, Except.ok.injEq]
    constructor
    · rintro ⟨h, rfl⟩
      exact ⟨_, by simp only [inAddr, addrMax] at h ⊢; omega, rfl⟩
    · rintro ⟨a, ⟨h1, h2⟩, rfl⟩
      simp only [← h1, inAddr, addrMax, Int.toNat_natCast, and_true] at h2 ⊢
      omega

/-- R62, R64, R66, R67: slot `i` has write address `wa`. -/
theorem slot_targets_iff {s : State} {i : Nat} {f : ModeField} {wa : Nat} :
    Targets s i f wa ↔ ∃ m, slotMode s i f = .ok m ∧ writeSlot s i m = .ok wa := by
  simp only [Targets, slotMode_ok_iff, writeSlot, bind_ok_iff, rawOperand_ok_iff, exists_and_left]
  refine exists_congr fun m => and_congr_right fun _ => exists_congr fun raw => and_congr_right fun _ => ?_
  cases m
  · simp [writeAddr, addrcheck_ok_iff]
  · cases h : s.params.immWrite <;> simp [writeAddr, h, addrcheck_ok_iff]
  · simp [writeAddr, addrcheck_ok_iff]

/-- The mode a slot stands for does not depend on which slot it is. -/
theorem slotMode_ok_index {s : State} {f : ModeField} {m : Mode} {i : Nat} (j : Nat)
    (h : slotMode s i f = .ok m) : slotMode s j f = .ok m :=
  slotMode_ok_iff.2 (slotMode_ok_iff.1 h)

theorem readSlot_of_reads {s : State} {i : Nat} {f : ModeField} {v : Word} {m : Mode}
    (h : Reads s i f v) (hm : slotMode s i f = .ok m) : readSlot s i m = .ok v := by
  obtain ⟨m', h1, h2⟩ := slot_reads_iff.1 h
  rw [hm] at h1
  cases h1
  exact h2

theorem writeSlot_of_targets {s : State} {i : Nat} {f : ModeField} {wa : Nat} {m : Mode}
    (h : Targets s i f wa) (hm : slotMode s i f = .ok m) : writeSlot s i m = .ok wa := by
  obtain ⟨m', h1, h2⟩ := slot_targets_iff.1 h
  rw [hm] at h1
  cases h1
  exact h2

theorem storeAddr_ok_iff {s : State} {i : Nat} {f : ModeField} {wa : Nat} :
    storeAddr s i f = .ok wa ↔ Targets s i f wa := by
  rw [slot_targets_iff]; simp [storeAddr, bind_ok_iff]

theorem operandsRRW_ok_iff {s : State} {m0 m1 m2 : ModeField} {o : Triple} :
    operandsRRW s m0 m1 m2 = .ok o ↔ Reads s 0 m0 o.a ∧ Reads s 1 m1 o.b ∧ Targets s 2 m2 o.wa := by
  simp only [operandsRRW, bind_ok_iff, slot_reads_iff, slot_targets_iff, pure_eq_ok, Except.ok.injEq]
  constructor
  · rintro ⟨k0, h0, k1, h1, k2, h2, a, ha, b, hb, wa, hw, rfl⟩
    exact ⟨⟨k0, h0, ha⟩, ⟨k1, h1, hb⟩, k2, h2, hw⟩
  · rintro ⟨⟨k0, h0, ha⟩, ⟨k1, h1, hb⟩, k2, h2, hw⟩
    exact ⟨k0, h0, k1, h1, k2, h2, _, ha, _, hb, _, hw, rfl⟩

theorem operandsRR_ok_iff {s : State} {m0 m1 : ModeField} {o : Word × Word} :
    operandsRR s m0 m1 = .ok o ↔ Reads s 0 m0 o.1 ∧ Reads s 1 m1 o.2 := by
  simp only [operandsRR, bind_ok_iff, slot_reads_iff, pure_eq_ok, Except.ok.injEq]
  constructor
  · rintro ⟨k0, h0, k1, h1, a, ha, b, hb, rfl⟩
    exact ⟨⟨k0, h0, ha⟩, k1, h1, hb⟩
  · rintro ⟨⟨k0, h0, ha⟩, k1, h1, hb⟩
    exact ⟨k0, h0, k1, h1, _, ha, _, hb, rfl⟩

theorem operandR_ok_iff {s : State} {m0 : ModeField} {a : Word} :
    operandR s m0 = .ok a ↔ Reads s 0 m0 a := by
  rw [slot_reads_iff]; simp [operandR, bind_ok_iff]

theorem operandW_ok_iff {s : State} {m0 : ModeField} {wa : Nat} :
    operandW s m0 = .ok wa ↔ Targets s 0 m0 wa := storeAddr_ok_iff

theorem targets_le {s : State} {i : Nat} {f : ModeField} {wa : Nat} (h : Targets s i f wa) :
    wa ≤ addrMax := by
  obtain ⟨m, raw, -, -, h⟩ := h
  cases m
  · exact h.2
  · exact h.2.2
  · exact h.2

theorem nextPc_ok_iff {s : State} {len npc : Nat} :
    nextPc s len = .ok npc ↔ npc = s.pc + len ∧ s.pc + len ≤ addrMax := by
  unfold nextPc
  rw [addrcheck_ok_iff]
  omega

theorem nextPc_error {s : State} {len : Nat} (h : addrMax < s.pc + len) :
    nextPc s len = .error (.addressFault (s.pc + len)) := by
  refine addrcheck_error ?_
  simp only [inAddr, addrMax] at h ⊢; omega

theorem jumpTarget_ok_iff {b : Word} {npc : Nat} :
    jumpTarget b = .ok npc ↔ (npc : Int) = b.toInt ∧ npc ≤ addrMax := addrcheck_ok_iff

@[simp] theorem jumpPc_taken (s : State) (b : Word) : jumpPc s true b = jumpTarget b := if_pos rfl

@[simp] theorem jumpPc_not_taken (s : State) (b : Word) : jumpPc s false b = nextPc s 3 := if_neg Bool.false_ne_true

theorem jumpPc_range {s : State} {k : Bool} {b : Word} {npc : Nat} (h : jumpPc s k b = .ok npc) :
    npc ≤ addrMax := by
  unfold jumpPc at h
  split_ifs at h
  · exact (jumpTarget_ok_iff.1 h).2
  · obtain ⟨rfl, h'⟩ := nextPc_ok_iff.1 h; exact h'

/-- R5, R12: the signed value of a narrowed integer. -/
theorem wordOf_toInt {v : Int} (h : inWord v) : (wordOf v).toInt = v := by
  have hh := h
  simp only [inWord, wordMin, wordMax] at hh
  rw [BitVec.toInt_ofInt, Int.bmod_eq_of_le] <;> omega

theorem arithResult_ok {s : State} {v : Int} (h : inWord v) : arithResult s v = .ok (wordOf v) :=
  if_pos h

theorem arithResult_fault {s : State} {v : Int} (h : ¬ inWord v) (hp : s.params.overflow = .fault) :
    arithResult s v = .error (.overflow s.word) := by
  simp only [arithResult, if_neg h, hp]

theorem arithResult_wrap {s : State} {v : Int} (h : ¬ inWord v) (hp : s.params.overflow = .wrap) :
    arithResult s v = .ok (wrap64 v) := by
  simp only [arithResult, if_neg h, hp]

/-- R12: `wrap64(v)` is the one Word congruent to `v` modulo 2^64. -/
theorem eq_wrap64_iff {v : Int} {r : Word} : r = wrap64 v ↔ ∃ k : Int, r.toInt = v + k * 2 ^ 64 := by
  constructor
  · rintro rfl
    refine ⟨-(v.bdiv (2 ^ 64)), ?_⟩
    rw [wrap64, BitVec.toInt_ofInt]
    have := Int.bmod_add_bdiv v (2 ^ 64)
    push_cast at this ⊢
    linarith
  · rintro ⟨k, h⟩
    rw [← BitVec.ofInt_toInt (x := r), h]
    refine BitVec.eq_of_toInt_eq ?_
    simp only [wrap64, BitVec.toInt_ofInt]
    exact_mod_cast Int.add_mul_bmod_self_right v k (2 ^ 64)

/-- R76: the arithmetic result of the exact integer `v`. -/
theorem arithResult_ok_iff {s : State} {v : Int} {r : Word} :
    arithResult s v = .ok r ↔ ResultIs s v r := by
  unfold ResultIs
  by_cases h : inWord v
  · rw [arithResult_ok h, Except.ok.injEq]
    constructor
    · rintro rfl; exact .inl ⟨h, wordOf_toInt h⟩
    · rintro (⟨-, e⟩ | ⟨h', -⟩)
      · exact BitVec.eq_of_toInt_eq ((wordOf_toInt h).trans e.symm)
      · exact absurd h h'
  · cases hp : s.params.overflow
    · rw [arithResult_fault h hp]
      simp [h]
    · rw [arithResult_wrap h hp, Except.ok.injEq, eq_comm, eq_wrap64_iff]
      simp [h]

/-- The causes a failing check may report in state `s`: only those the parameters allow (R96, R114). -/
def CheckCause (s : State) : HaltCause → Prop
  | .none => False
  | .halt => False
  | .unrecognized _ => False
  | .invalidMode w _ => w = s.word ∧ s.params.invalidMode = .fault
  | .immediateWrite w _ => w = s.word ∧ s.params.immWrite = .fault
  | .addressFault a => ¬ inAddr a
  | .overflow _ => False

theorem addrcheck_cause {s : State} {a : Int} {c : HaltCause} (h : addrcheck a = .error c) :
    CheckCause s c := by
  obtain ⟨h1, rfl⟩ := addrcheck_error_iff.1 h
  exact h1

theorem slotMode_cause {s : State} {i : Nat} {f : ModeField} {c : HaltCause}
    (h : slotMode s i f = .error c) : CheckCause s c := by
  unfold slotMode at h
  cases f with
  | mode m => cases h
  | invalid d =>
    cases hp : s.params.invalidMode <;> simp only [hp] at h
    · cases h; exact ⟨rfl, hp⟩
    · cases h

theorem rawOperand_cause {s : State} {i : Nat} {c : HaltCause}
    (h : rawOperand s i = .error c) : CheckCause s c := by
  simp only [rawOperand, bind_error_iff, pure_eq_ok, reduceCtorEq, and_false, exists_false,
    or_false] at h
  exact addrcheck_cause h

theorem readSlot_cause {s : State} {i : Nat} {m : Mode} {c : HaltCause}
    (h : readSlot s i m = .error c) : CheckCause s c := by
  unfold readSlot at h
  rcases bind_error_iff.1 h with h | ⟨raw, -, h⟩
  · exact rawOperand_cause h
  · cases m
    · simp only [readValue, bind_error_iff, pure_eq_ok, reduceCtorEq, and_false, exists_false,
        or_false] at h
      exact addrcheck_cause h
    · cases h
    · simp only [readValue, bind_error_iff, pure_eq_ok, reduceCtorEq, and_false, exists_false,
        or_false] at h
      exact addrcheck_cause h

theorem writeSlot_cause {s : State} {i : Nat} {m : Mode} {c : HaltCause}
    (h : writeSlot s i m = .error c) : CheckCause s c := by
  unfold writeSlot at h
  rcases bind_error_iff.1 h with h | ⟨raw, -, h⟩
  · exact rawOperand_cause h
  · cases m
    · exact addrcheck_cause h
    · cases hp : s.params.immWrite <;> simp only [writeAddr, hp] at h
      · cases h; exact ⟨rfl, hp⟩
      · exact addrcheck_cause h
    · exact addrcheck_cause h

theorem storeAddr_cause {s : State} {i : Nat} {f : ModeField} {c : HaltCause}
    (h : storeAddr s i f = .error c) : CheckCause s c := by
  unfold storeAddr at h
  rcases bind_error_iff.1 h with h | ⟨m, -, h⟩
  · exact slotMode_cause h
  · exact writeSlot_cause h

theorem operandR_cause {s : State} {f : ModeField} {c : HaltCause}
    (h : operandR s f = .error c) : CheckCause s c := by
  unfold operandR at h
  rcases bind_error_iff.1 h with h | ⟨m, -, h⟩
  · exact slotMode_cause h
  · exact readSlot_cause h

theorem operandsRR_cause {s : State} {m0 m1 : ModeField} {c : HaltCause}
    (h : operandsRR s m0 m1 = .error c) : CheckCause s c := by
  unfold operandsRR at h
  rcases bind_error_iff.1 h with h | ⟨k0, -, h⟩
  · exact slotMode_cause h
  rcases bind_error_iff.1 h with h | ⟨k1, -, h⟩
  · exact slotMode_cause h
  rcases bind_error_iff.1 h with h | ⟨a, -, h⟩
  · exact readSlot_cause h
  rcases bind_error_iff.1 h with h | ⟨b, -, h⟩
  · exact readSlot_cause h
  · cases h

theorem operandsRRW_cause {s : State} {m0 m1 m2 : ModeField} {c : HaltCause}
    (h : operandsRRW s m0 m1 m2 = .error c) : CheckCause s c := by
  unfold operandsRRW at h
  rcases bind_error_iff.1 h with h | ⟨k0, -, h⟩
  · exact slotMode_cause h
  rcases bind_error_iff.1 h with h | ⟨k1, -, h⟩
  · exact slotMode_cause h
  rcases bind_error_iff.1 h with h | ⟨k2, -, h⟩
  · exact slotMode_cause h
  rcases bind_error_iff.1 h with h | ⟨a, -, h⟩
  · exact readSlot_cause h
  rcases bind_error_iff.1 h with h | ⟨b, -, h⟩
  · exact readSlot_cause h
  rcases bind_error_iff.1 h with h | ⟨wa, -, h⟩
  · exact writeSlot_cause h
  · cases h

theorem nextPc_cause {s : State} {len : Nat} {c : HaltCause} (h : nextPc s len = .error c) :
    CheckCause s c := addrcheck_cause h

theorem jumpTarget_cause {s : State} {b : Word} {c : HaltCause} (h : jumpTarget b = .error c) :
    CheckCause s c := addrcheck_cause h

theorem jumpPc_cause {s : State} {k : Bool} {b : Word} {c : HaltCause}
    (h : jumpPc s k b = .error c) : CheckCause s c := by
  unfold jumpPc at h
  split_ifs at h
  · exact jumpTarget_cause h
  · exact nextPc_cause h

/-- R76: an arithmetic result that faults reports the instruction word, under the fault policy only. -/
theorem arithResult_error {s : State} {v : Int} {c : HaltCause} (h : arithResult s v = .error c) :
    c = .overflow s.word ∧ s.params.overflow = .fault ∧ ¬ inWord v := by
  unfold arithResult at h
  split_ifs at h with hv
  cases hp : s.params.overflow <;> simp only [hp] at h
  · cases h; exact ⟨rfl, rfl, hv⟩
  · cases h

end Sys2Proof.Machine
end

