-- ==== Sys2Proof/Laws/Exec.lean ====
section
/-! SUPPORT. Everything one instruction and one step can do, said once. -/

namespace Sys2Proof.Machine

theorem finish_ok {s t : State} {r : Except HaltCause State} (h : r = .ok t) : finish s r = .next t := by
  subst h; rfl

theorem finish_error {s : State} {r : Except HaltCause State} {c : HaltCause} (h : r = .error c) :
    finish s r = .next (takeHalt s c) := by
  subst h; rfl

/-- R97, R99: an instruction always ends in a next state. -/
theorem finish_cases {s t : State} {r : Except HaltCause State} (h : finish s r = .next t) :
    (∃ c, r = .error c ∧ t = takeHalt s c) ∨ r = .ok t := by
  cases r with
  | error c => exact .inl ⟨c, rfl, by cases h; rfl⟩
  | ok u => exact .inr (by cases h; rfl)

theorem finish_next (s : State) (r : Except HaltCause State) : ∃ t, finish s r = .next t := by
  cases r <;> exact ⟨_, rfl⟩

/-- The causes instruction `i` may halt with in state `s` (R96, R100, R114). -/
def ExecCause (s : State) (i : Instr) (c : HaltCause) : Prop :=
  CheckCause s c ∨
    (c = .overflow s.word ∧ s.params.overflow = .fault ∧
      (i.opcode = .add ∨ i.opcode = .mul ∨ i.opcode = .arb)) ∨
    (c = .halt ∧ i = .hlt)

theorem ExecCause.ne_none {s : State} {i : Instr} {c : HaltCause} (h : ExecCause s i c) :
    c ≠ .none := by
  rintro rfl
  rcases h with h | ⟨h, -⟩ | ⟨h, -⟩
  · exact h
  · cases h
  · cases h

/-- What instruction `i` commits in state `s`, by the shape of the instruction (R75). -/
inductive Commits (s : State) : Instr → State → Prop where
  | store (i : Instr) (m2 : ModeField) (wa : Nat) (v : Word) (npc : Nat)
      (shape : ∃ m0 m1, i = .add m0 m1 m2 ∨ i = .mul m0 m1 m2 ∨ i = .lt m0 m1 m2 ∨ i = .eq m0 m1 m2)
      (target : Targets s 2 m2 wa) (range : npc ≤ addrMax) :
      Commits s i (commit s { store := some (wa, v) } npc)
  | inp (m0 : ModeField) (wa npc : Nat) (target : Targets s 0 m0 wa) (range : npc ≤ addrMax) :
      Commits s (.inp m0) (commit (afterInput s)
        { store := some (wa, inputValue s), event := some (.inp (inputValue s)) } npc)
  | out (m0 : ModeField) (a : Word) (npc : Nat) (source : Reads s 0 m0 a) (range : npc ≤ addrMax) :
      Commits s (.out m0) (commit (emitOutput s a) { event := some (.out a) } npc)
  | jump (i : Instr) (npc : Nat) (shape : ∃ m0 m1, i = .jt m0 m1 ∨ i = .jf m0 m1)
      (range : npc ≤ addrMax) : Commits s i (commit s {} npc)
  | base (m0 : ModeField) (r : Word) (npc : Nat) (range : npc ≤ addrMax) :
      Commits s (.arb m0) (commit s { base := some r } npc)

theorem range_of_nextPc {s : State} {len npc : Nat} (h : nextPc s len = .ok npc) : npc ≤ addrMax := by
  obtain ⟨rfl, h'⟩ := nextPc_ok_iff.1 h; exact h'

theorem execAdd_cases {m0 m1 m2 : ModeField} {s t : State} (h : execAdd m0 m1 m2 s = .next t) :
    (∃ c, ExecCause s (.add m0 m1 m2) c ∧ t = takeHalt s c) ∨ Commits s (.add m0 m1 m2) t := by
  rcases finish_cases h with ⟨c, e, rfl⟩ | e <;> clear h
  · refine .inl ⟨c, ?_, rfl⟩
    rcases bind_error_iff.1 e with h | ⟨o, -, h⟩
    · exact .inl (operandsRRW_cause h)
    rcases bind_error_iff.1 h with h | ⟨r, -, h⟩
    · exact .inr (.inl ⟨(arithResult_error h).1, (arithResult_error h).2.1, .inl rfl⟩)
    rcases bind_error_iff.1 h with h | ⟨npc, -, h⟩
    · exact .inl (nextPc_cause h)
    · cases h
  · obtain ⟨o, ho, h⟩ := bind_ok_iff.1 e
    obtain ⟨r, -, h⟩ := bind_ok_iff.1 h
    obtain ⟨npc, hn, h⟩ := bind_ok_iff.1 h
    cases h
    exact .inr (.store _ m2 o.wa r npc ⟨m0, m1, .inl rfl⟩ (operandsRRW_ok_iff.1 ho).2.2
      (range_of_nextPc hn))

theorem execMul_cases {m0 m1 m2 : ModeField} {s t : State} (h : execMul m0 m1 m2 s = .next t) :
    (∃ c, ExecCause s (.mul m0 m1 m2) c ∧ t = takeHalt s c) ∨ Commits s (.mul m0 m1 m2) t := by
  rcases finish_cases h with ⟨c, e, rfl⟩ | e <;> clear h
  · refine .inl ⟨c, ?_, rfl⟩
    rcases bind_error_iff.1 e with h | ⟨o, -, h⟩
    · exact .inl (operandsRRW_cause h)
    rcases bind_error_iff.1 h with h | ⟨r, -, h⟩
    · exact .inr (.inl ⟨(arithResult_error h).1, (arithResult_error h).2.1, .inr (.inl rfl)⟩)
    rcases bind_error_iff.1 h with h | ⟨npc, -, h⟩
    · exact .inl (nextPc_cause h)
    · cases h
  · obtain ⟨o, ho, h⟩ := bind_ok_iff.1 e
    obtain ⟨r, -, h⟩ := bind_ok_iff.1 h
    obtain ⟨npc, hn, h⟩ := bind_ok_iff.1 h
    cases h
    exact .inr (.store _ m2 o.wa r npc ⟨m0, m1, .inr (.inl rfl)⟩ (operandsRRW_ok_iff.1 ho).2.2
      (range_of_nextPc hn))

theorem execLt_cases {m0 m1 m2 : ModeField} {s t : State} (h : execLt m0 m1 m2 s = .next t) :
    (∃ c, ExecCause s (.lt m0 m1 m2) c ∧ t = takeHalt s c) ∨ Commits s (.lt m0 m1 m2) t := by
  rcases finish_cases h with ⟨c, e, rfl⟩ | e <;> clear h
  · refine .inl ⟨c, .inl ?_, rfl⟩
    rcases bind_error_iff.1 e with h | ⟨o, -, h⟩
    · exact operandsRRW_cause h
    rcases bind_error_iff.1 h with h | ⟨npc, -, h⟩
    · exact nextPc_cause h
    · cases h
  · obtain ⟨o, ho, h⟩ := bind_ok_iff.1 e
    obtain ⟨npc, hn, h⟩ := bind_ok_iff.1 h
    cases h
    exact .inr (.store _ m2 o.wa _ npc ⟨m0, m1, .inr (.inr (.inl rfl))⟩
      (operandsRRW_ok_iff.1 ho).2.2 (range_of_nextPc hn))

theorem execEq_cases {m0 m1 m2 : ModeField} {s t : State} (h : execEq m0 m1 m2 s = .next t) :
    (∃ c, ExecCause s (.eq m0 m1 m2) c ∧ t = takeHalt s c) ∨ Commits s (.eq m0 m1 m2) t := by
  rcases finish_cases h with ⟨c, e, rfl⟩ | e <;> clear h
  · refine .inl ⟨c, .inl ?_, rfl⟩
    rcases bind_error_iff.1 e with h | ⟨o, -, h⟩
    · exact operandsRRW_cause h
    rcases bind_error_iff.1 h with h | ⟨npc, -, h⟩
    · exact nextPc_cause h
    · cases h
  · obtain ⟨o, ho, h⟩ := bind_ok_iff.1 e
    obtain ⟨npc, hn, h⟩ := bind_ok_iff.1 h
    cases h
    exact .inr (.store _ m2 o.wa _ npc ⟨m0, m1, .inr (.inr (.inr rfl))⟩
      (operandsRRW_ok_iff.1 ho).2.2 (range_of_nextPc hn))

theorem execIn_cases {m0 : ModeField} {s t : State} (h : execIn m0 s = .next t) :
    (∃ c, ExecCause s (.inp m0) c ∧ t = takeHalt s c) ∨ Commits s (.inp m0) t := by
  rcases finish_cases h with ⟨c, e, rfl⟩ | e <;> clear h
  · refine .inl ⟨c, .inl ?_, rfl⟩
    rcases bind_error_iff.1 e with h | ⟨o, -, h⟩
    · exact storeAddr_cause h
    rcases bind_error_iff.1 h with h | ⟨npc, -, h⟩
    · exact nextPc_cause h
    · cases h
  · obtain ⟨wa, ho, h⟩ := bind_ok_iff.1 e
    obtain ⟨npc, hn, h⟩ := bind_ok_iff.1 h
    cases h
    exact .inr (.inp m0 wa npc (operandW_ok_iff.1 ho) (range_of_nextPc hn))

theorem execOut_cases {m0 : ModeField} {s t : State} (h : execOut m0 s = .next t) :
    (∃ c, ExecCause s (.out m0) c ∧ t = takeHalt s c) ∨ Commits s (.out m0) t := by
  rcases finish_cases h with ⟨c, e, rfl⟩ | e <;> clear h
  · refine .inl ⟨c, .inl ?_, rfl⟩
    rcases bind_error_iff.1 e with h | ⟨o, -, h⟩
    · exact operandR_cause h
    rcases bind_error_iff.1 h with h | ⟨npc, -, h⟩
    · exact nextPc_cause h
    · cases h
  · obtain ⟨a, ho, h⟩ := bind_ok_iff.1 e
    obtain ⟨npc, hn, h⟩ := bind_ok_iff.1 h
    cases h
    exact .inr (.out m0 a npc (operandR_ok_iff.1 ho) (range_of_nextPc hn))

theorem execJt_cases {m0 m1 : ModeField} {s t : State} (h : execJt m0 m1 s = .next t) :
    (∃ c, ExecCause s (.jt m0 m1) c ∧ t = takeHalt s c) ∨ Commits s (.jt m0 m1) t := by
  rcases finish_cases h with ⟨c, e, rfl⟩ | e <;> clear h
  · refine .inl ⟨c, .inl ?_, rfl⟩
    rcases bind_error_iff.1 e with h | ⟨o, -, h⟩
    · exact operandsRR_cause h
    rcases bind_error_iff.1 h with h | ⟨npc, -, h⟩
    · exact jumpPc_cause h
    · cases h
  · obtain ⟨o, -, h⟩ := bind_ok_iff.1 e
    obtain ⟨npc, hn, h⟩ := bind_ok_iff.1 h
    cases h
    exact .inr (.jump _ npc ⟨m0, m1, .inl rfl⟩ (jumpPc_range hn))

theorem execJf_cases {m0 m1 : ModeField} {s t : State} (h : execJf m0 m1 s = .next t) :
    (∃ c, ExecCause s (.jf m0 m1) c ∧ t = takeHalt s c) ∨ Commits s (.jf m0 m1) t := by
  rcases finish_cases h with ⟨c, e, rfl⟩ | e <;> clear h
  · refine .inl ⟨c, .inl ?_, rfl⟩
    rcases bind_error_iff.1 e with h | ⟨o, -, h⟩
    · exact operandsRR_cause h
    rcases bind_error_iff.1 h with h | ⟨npc, -, h⟩
    · exact jumpPc_cause h
    · cases h
  · obtain ⟨o, -, h⟩ := bind_ok_iff.1 e
    obtain ⟨npc, hn, h⟩ := bind_ok_iff.1 h
    cases h
    exact .inr (.jump _ npc ⟨m0, m1, .inr rfl⟩ (jumpPc_range hn))

theorem execArb_cases {m0 : ModeField} {s t : State} (h : execArb m0 s = .next t) :
    (∃ c, ExecCause s (.arb m0) c ∧ t = takeHalt s c) ∨ Commits s (.arb m0) t := by
  rcases finish_cases h with ⟨c, e, rfl⟩ | e <;> clear h
  · refine .inl ⟨c, ?_, rfl⟩
    rcases bind_error_iff.1 e with h | ⟨o, -, h⟩
    · exact .inl (operandR_cause h)
    rcases bind_error_iff.1 h with h | ⟨r, -, h⟩
    · exact .inr (.inl ⟨(arithResult_error h).1, (arithResult_error h).2.1, .inr (.inr rfl)⟩)
    rcases bind_error_iff.1 h with h | ⟨npc, -, h⟩
    · exact .inl (nextPc_cause h)
    · cases h
  · obtain ⟨a, -, h⟩ := bind_ok_iff.1 e
    obtain ⟨r, -, h⟩ := bind_ok_iff.1 h
    obtain ⟨npc, hn, h⟩ := bind_ok_iff.1 h
    cases h
    exact .inr (.base m0 r npc (range_of_nextPc hn))

theorem execHlt_cases {s t : State} (h : execHlt s = .next t) :
    (∃ c, ExecCause s .hlt c ∧ t = takeHalt s c) ∨ Commits s .hlt t := by
  cases h
  exact .inl ⟨.halt, .inr (.inr ⟨rfl, rfl⟩), rfl⟩

/-- R75, R97: an instruction either halts with a cause and no effect, or commits. -/
theorem exec_cases {i : Instr} {s t : State} (h : exec i s = .next t) :
    (∃ c, ExecCause s i c ∧ t = takeHalt s c) ∨ Commits s i t := by
  cases i with
  | add m0 m1 m2 => exact execAdd_cases h
  | mul m0 m1 m2 => exact execMul_cases h
  | inp m0 => exact execIn_cases h
  | out m0 => exact execOut_cases h
  | jt m0 m1 => exact execJt_cases h
  | jf m0 m1 => exact execJf_cases h
  | lt m0 m1 m2 => exact execLt_cases h
  | eq m0 m1 m2 => exact execEq_cases h
  | arb m0 => exact execArb_cases h
  | hlt => exact execHlt_cases h

/-- R99: no instruction faults or is refused. -/
theorem exec_next (i : Instr) (s : State) : ∃ t, exec i s = .next t := by
  cases i with
  | hlt => exact ⟨_, rfl⟩
  | _ => exact finish_next s _

/-- A fetch that fails reports an unrecognised word, or a pc outside the address space. -/
theorem fetch_error {s : State} {c : HaltCause} (h : fetch s = .error c) :
    (c = .unrecognized s.word ∧ s.pc ≤ addrMax) ∨ (c = .addressFault s.pc ∧ addrMax < s.pc) := by
  by_cases hp : s.pc ≤ addrMax
  · refine .inl ⟨?_, hp⟩
    simp only [fetch, addrcheck_nat hp, ok_bind] at h
    split at h
    · cases h
    · cases h; rfl
  · refine .inr ⟨?_, by omega⟩
    have : ¬ inAddr (s.pc : Int) := by simp only [inAddr, addrMax] at hp ⊢; omega
    simp only [fetch, addrcheck_error this, error_bind] at h
    cases h; rfl

theorem fetch_ok {s : State} {i : Instr} (hp : s.pc ≤ addrMax)
    (h : decode (s.mem.read s.pc) = .ok i) : fetch s = .ok i := by
  simp only [fetch, addrcheck_nat hp, ok_bind, h]; rfl

theorem fetch_rejected {s : State} {e : DecodeReject} (hp : s.pc ≤ addrMax)
    (h : decode (s.mem.read s.pc) = .error e) :
    fetch s = .error (.unrecognized (s.mem.read s.pc)) := by
  simp only [fetch, addrcheck_nat hp, ok_bind, h]; rfl

/-- What no commit changes, and that its pc is an address. -/
theorem Commits.status {s t : State} {i : Instr} (h : Commits s i t) :
    t.runState = s.runState ∧ t.haltCause = s.haltCause ∧ t.params = s.params ∧ t.pc ≤ addrMax := by
  cases h <;> simp <;> assumption

/-- R74, R144: one step starts the run, halts with a cause and no effect, commits an instruction, or
leaves a halted machine as it is. -/
theorem step_cases {s t : State} (h : step s = .next t) :
    (s.runState = .ready ∧ t = s.start) ∨
    (s.runState = .running ∧ ∃ c, c ≠ .none ∧ t = takeHalt s c) ∨
    (s.runState = .running ∧ ∃ i, fetch s = .ok i ∧ Commits s i t) ∨
    (s.runState = .halted ∧ t = s) := by
  unfold step at h
  split at h
  · rename_i hr; cases h; exact .inl ⟨hr, rfl⟩
  · rename_i hr
    unfold cycle at h
    split at h
    · rename_i i hi
      rcases exec_cases h with ⟨c, hc, rfl⟩ | hc
      · exact .inr (.inl ⟨hr, c, hc.ne_none, rfl⟩)
      · exact .inr (.inr (.inl ⟨hr, i, hi, hc⟩))
    · rename_i c hc
      cases h
      refine .inr (.inl ⟨hr, c, ?_, rfl⟩)
      rcases fetch_error hc with ⟨rfl, -⟩ | ⟨rfl, -⟩ <;> simp
  · rename_i hr; cases h; exact .inr (.inr (.inr ⟨hr, rfl⟩))

theorem step_next (s : State) : ∃ t, step s = .next t := by
  unfold step
  split
  · exact ⟨_, rfl⟩
  · unfold cycle
    split
    · exact exec_next _ _
    · exact ⟨_, rfl⟩
  · exact ⟨_, rfl⟩

end Sys2Proof.Machine
end

