-- ==== Sys2Proof/Laws/History.lean ====
section
/-! SUPPORT. The trace: replaying it and reading its inputs and outputs, over events added at its end. -/

namespace Sys2Proof

open Sys2Proof.Machine

theorem replay_append (p : Params) (d : Display) (es fs : List Event) :
    replay p d (es ++ fs) = (replay p d es).bind (fun e => replay p e fs) := by
  induction es generalizing d with
  | nil => rfl
  | cons e es ih =>
    cases e with
    | inp v =>
      simp only [List.cons_append, replay]
      split_ifs
      · exact ih d
      · rfl
    | out v => exact ih _

theorem inputsOf_append (es fs : List Event) : inputsOf (es ++ fs) = inputsOf es ++ inputsOf fs := by
  induction es with
  | nil => rfl
  | cons e es ih => cases e <;> simp [inputsOf, ih]

theorem outputsOf_append (es fs : List Event) :
    outputsOf (es ++ fs) = outputsOf es ++ outputsOf fs := by
  induction es with
  | nil => rfl
  | cons e es ih => cases e <;> simp [outputsOf, ih]

end Sys2Proof
end

