-- ==== Sys2Proof/Laws/PerInstr.lean ====
section
/-! SUPPORT. Statements made per instruction, one lemma a constructor.  Family `NumberRange`: the number of a
well-formed instruction's word has the opcode as its two low digits and no digit beyond its used slots. -/

namespace Sys2Proof.Laws.NumberRange

/-- R56, R60, R61, R70: one mode field a used slot, the opcode in the two low digits, no digit above the
last used slot's. -/
def Statement (i : Instr) : Prop :=
  i.modes.length = i.opcode.slots ∧
    (i.wellFormed = true →
      i.number % 100 = i.opcode.code ∧ i.number < 10 ^ (2 + i.opcode.slots))

theorem three {m0 m1 m2 : ModeField} {c : Nat} (hc : c < 100)
    (h : [m0, m1, m2].all ModeField.wellFormed = true) :
    packDigits c m0.digit m1.digit m2.digit % 100 = c ∧
      packDigits c m0.digit m1.digit m2.digit < 100000 := by
  simp only [List.all_cons, List.all_nil, Bool.and_true, Bool.and_eq_true] at h
  have h0 := digit_le_nine h.1
  have h1 := digit_le_nine h.2.1
  have h2 := digit_le_nine h.2.2
  unfold packDigits
  omega

theorem two {m0 m1 : ModeField} {c : Nat} (hc : c < 100)
    (h : [m0, m1].all ModeField.wellFormed = true) :
    packDigits c m0.digit m1.digit 0 % 100 = c ∧ packDigits c m0.digit m1.digit 0 < 10000 := by
  simp only [List.all_cons, List.all_nil, Bool.and_true, Bool.and_eq_true] at h
  have h0 := digit_le_nine h.1
  have h1 := digit_le_nine h.2
  unfold packDigits
  omega

theorem one {m0 : ModeField} {c : Nat} (hc : c < 100) (h : [m0].all ModeField.wellFormed = true) :
    packDigits c m0.digit 0 0 % 100 = c ∧ packDigits c m0.digit 0 0 < 1000 := by
  simp only [List.all_cons, List.all_nil, Bool.and_true] at h
  have h0 := digit_le_nine h
  unfold packDigits
  omega

theorem add (m0 m1 m2 : ModeField) : Statement (.add m0 m1 m2) := ⟨rfl, three (by decide)⟩

theorem mul (m0 m1 m2 : ModeField) : Statement (.mul m0 m1 m2) := ⟨rfl, three (by decide)⟩

theorem inp (m0 : ModeField) : Statement (.inp m0) := ⟨rfl, one (by decide)⟩

theorem out (m0 : ModeField) : Statement (.out m0) := ⟨rfl, one (by decide)⟩

theorem jt (m0 m1 : ModeField) : Statement (.jt m0 m1) := ⟨rfl, two (by decide)⟩

theorem jf (m0 m1 : ModeField) : Statement (.jf m0 m1) := ⟨rfl, two (by decide)⟩

theorem lt (m0 m1 m2 : ModeField) : Statement (.lt m0 m1 m2) := ⟨rfl, three (by decide)⟩

theorem eq (m0 m1 m2 : ModeField) : Statement (.eq m0 m1 m2) := ⟨rfl, three (by decide)⟩

theorem arb (m0 : ModeField) : Statement (.arb m0) := ⟨rfl, one (by decide)⟩

theorem hlt : Statement .hlt := ⟨rfl, fun _ => by decide⟩

end Sys2Proof.Laws.NumberRange
end

