-- ==== Sys2Proof/Machine/Assembler.lean ====
section
/-! DEFINITION. The spec's own assembly language (30_encoding.md R71, R72) as abstract lines: operand
forms, labels and `.word`.  The concrete text is not modelled (log entry 15). -/

namespace Sys2Proof.Machine

/-- R71: `k`, a decimal Word or a label. -/
inductive AsmValue where
  | num (v : Word)
  | label (name : String)
deriving DecidableEq, Repr

/-- R71: the operand forms `#k`, `[k]` and `[rb+k]` (`[rb-k]` has the Word -k). -/
inductive AsmOperand where
  | imm (k : AsmValue)
  | pos (k : AsmValue)
  | rel (k : AsmValue)
deriving DecidableEq, Repr

/-- R71, R72: one line; `bind` is `name:` and `word` is the directive `.word`. -/
inductive AsmLine where
  | add (s0 s1 d : AsmOperand)
  | mul (s0 s1 d : AsmOperand)
  | inp (d : AsmOperand)
  | out (s0 : AsmOperand)
  | jt (s0 s1 : AsmOperand)
  | jf (s0 s1 : AsmOperand)
  | lt (s0 s1 d : AsmOperand)
  | eq (s0 s1 d : AsmOperand)
  | arb (s0 : AsmOperand)
  | hlt
  | word (vs : List Word)
  | bind (name : String)
deriving DecidableEq, Repr

/-- R71: the mode of an operand form. -/
def AsmOperand.mode : AsmOperand → ModeField
  | .imm _ => .mode .immediate
  | .pos _ => .mode .position
  | .rel _ => .mode .relative

/-- The value written in an operand. -/
def AsmOperand.value : AsmOperand → AsmValue
  | .imm k => k
  | .pos k => k
  | .rel k => k

/-- R71: a write operand may not be `#k`. -/
def AsmOperand.writable : AsmOperand → Bool
  | .imm _ => false
  | .pos _ => true
  | .rel _ => true

/-- The instruction of a line and its operands, slot 0 first; `none` for a line that is no
instruction or whose write operand the assembler refuses. -/
def AsmLine.instr : AsmLine → Option (Instr × List AsmOperand)
  | .add a b d => if d.writable then some (.add a.mode b.mode d.mode, [a, b, d]) else none
  | .mul a b d => if d.writable then some (.mul a.mode b.mode d.mode, [a, b, d]) else none
  | .inp d => if d.writable then some (.inp d.mode, [d]) else none
  | .out a => some (.out a.mode, [a])
  | .jt a b => some (.jt a.mode b.mode, [a, b])
  | .jf a b => some (.jf a.mode b.mode, [a, b])
  | .lt a b d => if d.writable then some (.lt a.mode b.mode d.mode, [a, b, d]) else none
  | .eq a b d => if d.writable then some (.eq a.mode b.mode d.mode, [a, b, d]) else none
  | .arb a => some (.arb a.mode, [a])
  | .hlt => some (.hlt, [])
  | .word _ => none
  | .bind _ => none

/-- R60, R72: how many Words a line takes. -/
def AsmLine.size (l : AsmLine) : Nat :=
  match l with
  | .word vs => vs.length
  | .bind _ => 0
  | _ => match l.instr with
    | some (i, _) => i.opcode.length
    | none => 0

/-- R71: the labels' addresses, the first line at address `at_`. -/
def labelsFrom (at_ : Nat) : List AsmLine → List (String × Nat)
  | [] => []
  | .bind n :: ls => (n, at_) :: labelsFrom at_ ls
  | l :: ls => labelsFrom (at_ + l.size) ls

/-- The Word of a value; an unbound label has none. -/
def AsmValue.word (labels : List (String × Nat)) : AsmValue → Option Word
  | .num v => some v
  | .label n => (labels.lookup n).map (fun a => BitVec.ofNat 64 a)

/-- R60, R70, R72: the Words of one line. -/
def AsmLine.words (labels : List (String × Nat)) (l : AsmLine) : Option (List Word) :=
  match l with
  | .word vs => some vs
  | .bind _ => some []
  | _ =>
    match l.instr with
    | some (i, os) => (os.mapM (fun o : AsmOperand => o.value.word labels)).map (encodeWords i)
    | none => none

/-- R71, R72: the program of a list of lines, loaded from address 0 on. -/
def assemble (ls : List AsmLine) : Option (List Word) :=
  (ls.mapM (AsmLine.words (labelsFrom 0 ls))).map List.flatten

end Sys2Proof.Machine
end

