-- ==== Sys2Proof/Tests/Slice0.lean ====
section
/-! SUPPORT. Tests, each on one small state, with the expected result of 95_test_vectors.md, of an example in
a rule, or worked by hand from the rule named; and for every obligation with hypotheses a witness that
meets them. -/

namespace Sys2Proof.Tests

open Sys2Proof Sys2Proof.Machine

/-! ## Helpers -/

/-- A running machine with parameters `p` and the program `ws` at 0. -/
def machineWith (p : Params) (ws : List Word) : State :=
  { State.resetWith p with mem := Memory.writeWords [] 0 ws, runState := .running }

/-- The same with the default parameters. -/
def machine (ws : List Word) : State := machineWith Params.default ws

/-- A running machine with the words `ws` at the top of memory, ending at ADDR_MAX, and pc at the
first. -/
def topMachine (ws : List Word) : State :=
  { State.reset with
    mem := Memory.writeWords [] (addrMax + 1 - ws.length) ws
    pc := addrMax + 1 - ws.length
    runState := .running }

/-- The state after one step. -/
def after (s : State) : State :=
  match step s with
  | .next t => t
  | .fault _ => s
  | .refused _ => s

def wrapping : Params := { Params.default with overflow := .wrap }

def permissive : Params := { Params.default with invalidMode := .asPosition, immWrite := .asPosition }

def genericParams : Params := { Params.default with peripheral := .generic }

/-- WORD_MAX and WORD_MIN. -/
def wmax : Word := 9223372036854775807

def wmin : Word := -9223372036854775808

abbrev P : ModeField := .mode .position

abbrev I : ModeField := .mode .immediate

abbrev R : ModeField := .mode .relative

/-! ## Well-formedness and decoding -/

/-- R58: a mode field of digit 2 or 10 is no invalid digit. -/
theorem test_illformed_low : (Instr.add (.invalid 2) P P).wellFormed = false := by decide

theorem test_illformed_high : (Instr.jt P (.invalid 10)).wellFormed = false := by decide

theorem test_wellformed_invalid_digits :
    (Instr.eq (.invalid 3) R (.invalid 9)).wellFormed = true := by decide

/-- DEC2, the encoding check of 95_test_vectors.md. -/
theorem test_decode_add : decode 21101 = .ok (.add I I R) := by decide

/-- DEC1, E1; DEC3. -/
theorem test_decode_mul : decode 1002 = .ok (.mul P I P) ∧ decode 22202 = .ok (.mul R R R) := by
  decide

/-- R79 and DEC18: canonical word 3 + 100*m0. -/
theorem test_decode_in : decode 203 = .ok (.inp R) ∧ decode 103 = .ok (.inp I) := by decide

/-- DEC4, DEC8, DEC9. -/
theorem test_decode_out :
    decode 204 = .ok (.out R) ∧ decode 1104 = .ok (.out I) ∧ decode 1204 = .ok (.out R) := by
  decide

/-- J9, J7. -/
theorem test_decode_jt : decode 1005 = .ok (.jt P I) ∧ decode 105 = .ok (.jt I P) := by decide

/-- J3, and R86: 6 + 100*2 + 1000*0. -/
theorem test_decode_jf : decode 1106 = .ok (.jf I I) ∧ decode 206 = .ok (.jf R P) := by decide

/-- CMP1, and R89: 7 + 100*0 + 1000*1 + 10000*2. -/
theorem test_decode_lt : decode 1107 = .ok (.lt I I P) ∧ decode 21007 = .ok (.lt P I R) := by decide

/-- CMP8, P4. -/
theorem test_decode_eq : decode 1108 = .ok (.eq I I P) ∧ decode 1008 = .ok (.eq P I P) := by decide

/-- B1, B3. -/
theorem test_decode_arb : decode 109 = .ok (.arb I) ∧ decode 209 = .ok (.arb R) := by decide

/-- DEC5, DEC6, DEC7. -/
theorem test_decode_hlt :
    decode 199 = .ok .hlt ∧ decode 100099 = .ok .hlt ∧ decode 22299 = .ok .hlt := by decide

/-- DEC10 to DEC14. -/
theorem test_decode_rejects :
    decode 0 = .error (.unrecognisedOpcode 0) ∧ decode 10 = .error (.unrecognisedOpcode 10) ∧
    decode 98 = .error (.unrecognisedOpcode 98) ∧ decode 1077 = .error (.unrecognisedOpcode 77) ∧
    decode (-1) = .error .negativeWord := by decide

/-- DEC15, DEC16. -/
theorem test_decode_invalid_modes :
    decode 301 = .ok (.add (.invalid 3) P P) ∧ decode 30001 = .ok (.add P P (.invalid 3)) := by
  decide

/-- R70: "MUL with modes (0, 1, 0) is 1002". -/
theorem test_encode_mul : encode (.mul P I P) = 1002 := by decide

/-- R60: a four-word instruction is its word and three raw operands. -/
theorem test_encode_words : encodeWords (.mul P I P) [4, 3, 4, 33] = [1002, 4, 3, 4] := by decide

/-- R68, R73: the table's numbering, first word in the low 64 bits. -/
theorem test_table_word : decodeTableWord 8 99 = some .hlt ∧ decodeTableWord 128 (2 ^ 64 * 7 + 104) =
    some (.out I) := by decide

/-- P3 of 95_test_vectors.md, its listing and its encodings. -/
theorem test_assemble_P3 :
    assemble [.arb (.imm (.num 100)), .add (.imm (.num 3)) (.imm (.num 4)) (.rel (.num 0)),
      .mul (.rel (.num 0)) (.rel (.num 0)) (.rel (.num 1)), .arb (.imm (.num (-99))),
      .out (.rel (.num 100)), .hlt] =
    some [109, 100, 21101, 3, 4, 0, 22202, 0, 0, 1, 109, -99, 204, 100, 99] := by decide

/-- R71: a label before an instruction is its address; R72: a directive takes its Words. -/
theorem test_assemble_label :
    assemble [.word [7, 7], .bind "top", .jt (.imm (.num 1)) (.imm (.label "top"))] =
    some [7, 7, 1105, 1, 2] := by decide

/-- R71: a write operand may not be immediate. -/
theorem test_assemble_refuses : assemble [.inp (.imm (.num 5))] = none := by decide

/-! ## Instructions, one step each -/

/-- A1, first step. -/
theorem test_add : (after (machine [1, 9, 10, 3, 2, 3, 11, 0, 99, 30, 40, 50])).mem.read 3 = 70 ∧
    (after (machine [1, 9, 10, 3, 2, 3, 11, 0, 99, 30, 40, 50])).pc = 4 := by decide

/-- A6, A7. -/
theorem test_add_overflow :
    (after (machine [1101, wmax, 1, 7, 99])).haltCause = .overflow 1101 ∧
    (after (machineWith wrapping [1101, wmax, 1, 7, 99])).mem.read 7 = wmin := by decide

/-- E3, first step: the product is written over the word that is executed next. -/
theorem test_mul : (after (machine [1002, 4, 3, 4, 33])).mem.read 4 = 99 ∧
    (after (machine [1002, 4, 3, 4, 33])).pc = 4 := by decide

/-- A10, A13. -/
theorem test_mul_overflow :
    (after (machine [1102, -1, wmin, 7, 99])).haltCause = .overflow 1102 ∧
    (after (machineWith wrapping [1102, 4294967296, 4294967296, 7, 99])).mem.read 7 = 0 ∧
    (after (machineWith wrapping [1102, 4294967296, 4294967296, 7, 99])).pc = 4 := by decide

/-- I1, and the control law with the paddle left of the ball (E5). -/
theorem test_in : (after (machine [3, 5, 99])).trace = [.inp 0] ∧
    (after { machine [3, 5, 99] with
      display := { Display.reset Params.default with paddle := (10, 0), ball := (12, 5) } }).mem.read 5
      = 1 := by decide

/-- I3 and I6: the fault comes before the call, so no input is consumed. -/
theorem test_in_faults :
    (after (machineWith genericParams [103, 5, 99])).haltCause = .immediateWrite 103 0 ∧
    (after (machineWith genericParams [103, 5, 99])).draws = 0 ∧
    (after (machineWith genericParams [3, -1, 99])).haltCause = .addressFault (-1) ∧
    (after (machineWith genericParams [3, -1, 99])).trace = [] := by decide

/-- O1. -/
theorem test_out : (after (machine [104, 1125899906842624, 99])).trace = [.out 1125899906842624] ∧
    (after (machine [104, 1125899906842624, 99])).display.pendX = 1125899906842624 := by decide

/-- O5: at ADDR_MAX - 1 the slot address is valid but the next pc is not. -/
theorem test_out_top : (after (topMachine [104, 5])).haltCause = .addressFault 9223372036854775808 ∧
    (after (topMachine [104, 5])).trace = [] ∧ (after (topMachine [104, 5])).pc = addrMax - 1 := by
  decide

/-- J1, J5. -/
theorem test_jt : (after (machine [1105, 1, 7])).pc = 7 ∧
    (after (machine [1105, 1, -5])).haltCause = .addressFault (-5) := by decide

/-- J6, J7: a target not taken is no address, but its slot is resolved all the same. -/
theorem test_jt_not_taken : (after (machine [1105, 0, -5])).pc = 3 ∧
    (after (machine [105, 0, -5, 99])).haltCause = .addressFault (-5) := by decide

/-- J3, J4. -/
theorem test_jf : (after (machine [1106, 0, 9])).pc = 9 ∧ (after (machine [1106, -1, 9])).pc = 3 := by
  decide

/-- CMP3, CMP4: the order is signed. -/
theorem test_lt : (after (machine [1107, -1, 0, 9, 99])).mem.read 9 = 1 ∧
    (after (machine [1107, wmin, wmax, 9, 99])).mem.read 9 = 1 := by decide

/-- R89: WORD_MAX < WORD_MIN gives 0, written over a nonzero Word. -/
theorem test_lt_false : (after (machine [1107, wmax, wmin, 2, 99])).mem.read 2 = 0 := by decide

/-- CMP8, CMP9. -/
theorem test_eq : (after (machine [1108, 7, 7, 9, 99])).mem.read 9 = 1 ∧
    (after (machine [1108, -1, wmax, 2, 99])).mem.read 2 = 0 := by decide

/-- B2, and the second step of B3: the operand is read through the rb of before. -/
theorem test_arb : (after (machine [109, -5, 99])).rb = -5 ∧
    (after { machine [109, 4, 209, -2, 99] with pc := 2, rb := 4 }).rb = 213 := by decide

/-- The second step of B5 and B6. -/
theorem test_arb_overflow :
    (after { machine [109, wmax, 109, 1, 99] with pc := 2, rb := wmax }).haltCause = .overflow 109 ∧
    (after { machineWith wrapping [109, wmax, 109, 1, 99] with pc := 2, rb := wmax }).rb = wmin := by
  decide

/-- E2, H3. -/
theorem test_hlt : (after (machine [99])).haltCause = .halt ∧ (after (machine [99])).pc = 0 ∧
    (after (machine [100099])).haltCause = .halt := by decide

/-- R94: HLT at ADDR_MAX reads no slot and cannot fault. -/
theorem test_hlt_top : after (topMachine [99]) = takeHalt (topMachine [99]) .halt := by decide

/-- E7, H4, DEC14: nothing but the status changes. -/
theorem test_unrecognised : after (machine [77]) = takeHalt (machine [77]) (.unrecognized 77) ∧
    after (machine []) = takeHalt (machine []) (.unrecognized 0) ∧
    after (machine [-1]) = takeHalt (machine [-1]) (.unrecognized (-1)) := by decide

/-- A19, A18, A15: modes before operands, slot 0 before slot 1, and the immediate write. -/
theorem test_check_order :
    (after (machine [30001, -1, 0, 0, 99])).haltCause = .invalidMode 30001 2 ∧
    (after (machine [1, -1, -2, 0, 99])).haltCause = .addressFault (-1) ∧
    (after (machine [11101, 1, 2, 3, 99])).haltCause = .immediateWrite 11101 2 := by decide

/-- A20, and A16 with another sum. -/
theorem test_permissive :
    (after (machineWith permissive [301, 0, 0, 0, 99])).mem.read 0 = 602 ∧
    (after (machineWith permissive [11101, 1, 4, 3, 99])).mem.read 3 = 5 := by decide

/-- The third step of B4: a relative write address of -5. -/
theorem test_relative_fault :
    (after { machine [109, -5, 22101, 0, 5, 0, 99] with pc := 2, rb := -5 }).haltCause =
      .addressFault (-5) := by decide

/-- R100: with one slot in memory, slot 0's own fault comes before slot 1's address. -/
theorem test_slot_order_at_top :
    (after (topMachine [1, -1])).haltCause = .addressFault (-1) ∧
    (after (topMachine [1101, -1])).haltCause = .addressFault 9223372036854775808 := by decide

/-! ## The display -/

/-- The display after outputs fed from reset. -/
def fed (vs : List Word) : Display :=
  vs.foldl (Display.emitOutput Params.default) (Display.reset Params.default)

/-- E5a, E5b, E5c. -/
theorem test_control_law :
    (fed [10, 0, 3, 12, 5, 4]).requestInput = 1 ∧ (fed [12, 0, 3, 10, 5, 4]).requestInput = -1 ∧
    (fed [10, 0, 3, 10, 5, 4]).requestInput = 0 := by decide

/-- E6d. -/
theorem test_triples : (fed [5, 7, 2, -1, 0, 42]).grid = [((5, 7), 2)] ∧
    (fed [5, 7, 2, -1, 0, 42]).score = 42 ∧ (fed [5, 7, 3, -1, 0, 42]).paddle = (5, 7) := by decide

/-- T1, T2, T3. -/
theorem test_phases : (fed [-1, 9, 10]).maxY = 9 ∧ (fed [-1, 9, 10]).grid = [] ∧
    (fed [4, 6]).phase = .expectTile ∧ (fed [2, 3, 4, 2, 3, 0]).ball = (2, 3) := by decide

/-- T5: negative coordinates are stored and tracked and do not lower the bounds. -/
theorem test_negative_coordinates : (fed [-3, -2, 3]).paddle = (-3, -2) ∧ (fed [-3, -2, 3]).maxX = 0 ∧
    (fed [-3, -2, 3]).grid.find (-3, -2) = some 3 := by decide

/-- R118, R119, T4: a code that names no tile is kept and seen as none; an absent coordinate is empty. -/
theorem test_tiles : (fed [1, 1, 7]).grid.find (1, 1) = some 7 ∧
    (fed [1, 1, 7]).tileAt Params.default (1, 1) = none ∧
    (fed [1, 1, 7]).tileAt Params.default (0, 0) = some .empty := by decide

/-! ## Memory, reset and the host -/

/-- R24, R38: writing 0 lists nothing, and equal memories are equal lists whatever the order of writes. -/
theorem test_memory_canonical : Memory.write (Memory.write [] 5 1) 5 0 = [] ∧
    Memory.write (Memory.write [] 5 1) 3 2 = Memory.write (Memory.write [] 3 2) 5 1 := by decide

/-- R144: from reset the first step starts the run, the second fetches the word 0 of the empty program. -/
theorem test_reset_run : after State.reset = { State.reset with runState := .running } ∧
    (after (after State.reset)).haltCause = .unrecognized 0 := by decide

/-- Every table row's word runs as the first instruction after reset: ADD of M[0] = 1 to itself. -/
theorem test_fetch_word : (after (State.reset.withFetchWord 8 1)).mem = [(0, 2)] ∧
    (after (State.reset.withFetchWord 8 99)).haltCause = .halt := by decide

/-- R134, R142, R143: loading, overriding in Ready only, inspecting when not Running. -/
theorem test_host : (State.load Params.default [99]).map (fun s => s.mem) = some [(0, 99)] ∧
    (State.reset.override 0 2).map (fun s => s.mem) = some [(0, 2)] ∧
    (machine [99]).override 0 2 = none ∧ (machine [99]).inspect = none ∧
    State.reset.override (addrMax + 1) 2 = none := by decide

/-- E2, H5: `execute()` of `[99]`, and again on the halted machine. -/
theorem test_execute : (execute 2 { machine [99] with runState := .ready }).map (fun r => r.2) =
      some .halt ∧
    execute 0 (takeHalt (machine [99]) .halt) = some (takeHalt (machine [99]) .halt, .halt) := by
  decide

/-- R96: the codes, and which of them are faults. -/
theorem test_codes : HaltCause.code (.overflow 0) = 6 ∧ HaltCause.isFault (.unrecognized 77) = false ∧
    HaltCause.isFault (.invalidMode 301 0) = true := by decide

/-! ## Witnesses: a state and operands that meet the hypotheses of each obligation -/

theorem test_witness_DecodeEncodeRoundTrip :
    (Instr.eq (.invalid 3) R (.invalid 9)).wellFormed = true ∧ Instr.hlt.wellFormed = true := by decide

theorem test_witness_DecodeReadsOpcodeAndUsedDigits : decode 991104 = .ok (.out I) := by decide

theorem test_witness_HighDigitsTakeNoPart :
    0 ≤ (100099 : Word).toInt ∧ 0 ≤ (99 : Word).toInt ∧
      (100099 : Word).toNat % 100000 = (99 : Word).toNat % 100000 := by decide

/-- The two clauses at their boundaries: the most negative Word and -1; 0 and 98. -/
theorem test_witness_DecodeRejectsExactly :
    wmin.toInt < 0 ∧ (-1 : Word).toInt < 0 ∧ 0 ≤ (0 : Word).toInt ∧
    (0 : Word).toNat % 100 ∉ [1, 2, 3, 4, 5, 6, 7, 8, 9, 99] ∧
    (98 : Word).toNat % 100 ∉ [1, 2, 3, 4, 5, 6, 7, 8, 9, 99] ∧
    (machine [-1]).runState = .running ∧ (machine [-1]).pc ≤ addrMax ∧
    (machine [-1]).mem.read (machine [-1]).pc = -1 := by decide

/-- A run that halts by an unrecognised word, and one that halts by a fault. -/
theorem test_witness_NothingIsRaised :
    Host.Core.run core 1 (machine [77]) = .next (after (machine [77])) ∧
    (after (machine [77])).runState = .halted ∧
    Host.Core.run core 1 (machine [4, -1]) = .next (after (machine [4, -1])) ∧
    (after (machine [4, -1])).runState = .halted := ⟨rfl, by decide, rfl, by decide⟩

theorem test_witness_StepRunsDecodedInstruction :
    (topMachine [99]).runState = .running ∧ (topMachine [99]).pc ≤ addrMax ∧
      decode ((topMachine [99]).mem.read (topMachine [99]).pc) = .ok .hlt := by decide

theorem test_witness_UnrecognisedWordHalts :
    (machine [1098]).runState = .running ∧ (machine [1098]).pc ≤ addrMax ∧
    0 ≤ ((machine [1098]).mem.read (machine [1098]).pc).toInt ∧
    ((machine [1098]).mem.read (machine [1098]).pc).toNat % 100 ∉ [1, 2, 3, 4, 5, 6, 7, 8, 9, 99] := by
  decide

theorem test_witness_HaltedIsTerminal : (takeHalt (machine [99]) .halt).runState = .halted := by decide

/-- The three run states, each with its step. -/
theorem test_witness_RunStateTransitions :
    step State.reset = .next { State.reset with runState := .running } ∧
    step (machine [99]) = .next (takeHalt (machine [99]) .halt) ∧
    step (takeHalt (machine [99]) .halt) = .next (takeHalt (machine [99]) .halt) := ⟨rfl, rfl, rfl⟩

theorem test_witness_HaltingInstructionHasNoOtherEffect :
    (machine [77]).runState = .running ∧
    step (machine [77]) = .next (takeHalt (machine [77]) (.unrecognized 77)) ∧
    (takeHalt (machine [77]) (.unrecognized 77)).runState = .halted := ⟨rfl, rfl, rfl⟩

theorem test_witness_HaltCauseIsWrittenAtTheHaltOnly :
    step (machine [99]) = .next (takeHalt (machine [99]) .halt) ∧
    (takeHalt (machine [99]) .halt).haltCause ≠ (machine [99]).haltCause := ⟨rfl, by decide⟩

theorem test_witness_ExecuteReturnsTheHaltCause :
    execute 1 (machine [99]) = some (takeHalt (machine [99]) .halt, .halt) := by decide

/-- A machine that meets `Inv`, and a step from it. -/
theorem test_witness_StepKeepsInv :
    Inv (machine [104, 5]) ∧ step (machine [104, 5]) = .next (after (machine [104, 5])) :=
  ⟨⟨by decide, by decide, by decide, by decide⟩, rfl⟩

/-- A machine whose display and trace agree after one output, about to answer an input. -/
theorem test_witness_StepKeepsArcadeHistory :
    (after (machine [104, 5, 3, 9])).params.peripheral = .arcade ∧
    ArcadeHistory (after (machine [104, 5, 3, 9])) ∧
    step (after (machine [104, 5, 3, 9])) = .next (after (after (machine [104, 5, 3, 9]))) :=
  ⟨rfl, fun _ => rfl, rfl⟩

theorem test_witness_StepKeepsGenericHistory :
    (machineWith genericParams [3, 5]).params.peripheral = .generic ∧
    GenericHistory (machineWith genericParams [3, 5]) ∧
    step (machineWith genericParams [3, 5]) = .next (after (machineWith genericParams [3, 5])) ∧
    (after (machineWith genericParams [3, 5])).trace = [.inp (Config.draw 0)] :=
  ⟨rfl, fun _ => rfl, rfl, rfl⟩

theorem test_witness_PhaseCountsOutputs :
    replay Params.default (Display.reset Params.default) [.out 4, .inp 0, .out 6] =
      some (fed [4, 6]) := by decide

theorem test_witness_step :
    step (machine [104, 5]) = .next (after (machine [104, 5])) := rfl

/-- Each of the four clauses of WhoMayChangeWhat has an instruction that does change the state. -/
theorem test_witness_WhoMayChangeWhat :
    (after (machine [109, 5])).rb ≠ (machine [109, 5]).rb ∧
    (after (machine [3, 5])).trace ≠ (machine [3, 5]).trace ∧
    (after (machine [104, 5])).display ≠ (machine [104, 5]).display ∧
    (after (machine [1101, 1, 1, 0])).mem ≠ (machine [1101, 1, 1, 0]).mem := by decide

theorem test_witness_EngineIgnoresDisplay :
    exec (.inp P) (machine [3, 5]) = .next (after (machine [3, 5])) ∧
    exec (.inp P) { machine [3, 5] with display := fed [10, 0, 3, 12, 5, 4] } =
      .next (after { machine [3, 5] with display := fed [10, 0, 3, 12, 5, 4] }) := ⟨rfl, rfl⟩

/-- A halting step under each of the three settings of PoliciesDecideCauses. -/
theorem test_witness_PoliciesDecideCauses :
    (machineWith permissive [4, -1]).params.invalidMode = .asPosition ∧
    (machineWith permissive [4, -1]).params.immWrite = .asPosition ∧
    (after (machineWith permissive [4, -1])).runState = .halted ∧
    (machineWith wrapping [4, -1]).params.overflow = .wrap ∧
    (after (machineWith wrapping [4, -1])).runState = .halted := by decide

/-- Operands in each mode: slot 0 relative, slot 1 position, slot 2 relative. -/
theorem test_operands_all_modes :
    operandsRRW { machine [21202, 3, 1, 4] with rb := -1 } R P R =
      .ok { a := 1, b := 3, wa := 3 } := by decide

/-- The hypotheses of AddStoresSum, and of MulStoresProduct, LtStoresSignedOrder, EqStoresEquality and
StoringInstructionsFrame on the same state. -/
theorem test_witness_AddStoresSum :
    Reads (machine [1101, 3, 4, 7]) 0 I 3 ∧ Reads (machine [1101, 3, 4, 7]) 1 I 4 ∧
    Targets (machine [1101, 3, 4, 7]) 2 P 7 ∧ ResultIs (machine [1101, 3, 4, 7]) (3 + 4) 7 ∧
    (machine [1101, 3, 4, 7]).pc + 4 ≤ addrMax := by
  have h : operandsRRW (machine [1101, 3, 4, 7]) I I P = .ok { a := 3, b := 4, wa := 7 } := by decide
  obtain ⟨h0, h1, h2⟩ := operandsRRW_ok_iff.1 h
  exact ⟨h0, h1, h2, .inl ⟨by decide, by decide⟩, by decide⟩

/-- The wrapping clause of ResultIs at its boundary, WORD_MAX + 1. -/
theorem test_witness_AddWraps :
    Reads (machineWith wrapping [1101, wmax, 1, 7]) 0 I wmax ∧
    Reads (machineWith wrapping [1101, wmax, 1, 7]) 1 I 1 ∧
    Targets (machineWith wrapping [1101, wmax, 1, 7]) 2 P 7 ∧
    ResultIs (machineWith wrapping [1101, wmax, 1, 7]) (wmax.toInt + 1) wmin := by
  have h : operandsRRW (machineWith wrapping [1101, wmax, 1, 7]) I I P =
    .ok { a := wmax, b := 1, wa := 7 } := by decide
  obtain ⟨h0, h1, h2⟩ := operandsRRW_ok_iff.1 h
  exact ⟨h0, h1, h2, .inr ⟨by decide, rfl, -1, by decide⟩⟩

theorem test_witness_MulStoresProduct : ResultIs (machine [1102, 3, 4, 7]) (3 * 4) 12 ∧
    operandsRRW (machine [1102, 3, 4, 7]) I I P = .ok { a := 3, b := 4, wa := 7 } :=
  ⟨.inl ⟨by decide, by decide⟩, by decide⟩

/-- The two clauses of LtStoresSignedOrder at their boundary: 3 < 4, and 4 < 4. -/
theorem test_witness_LtStoresSignedOrder :
    operandsRRW (machine [1107, 3, 4, 7]) I I P = .ok { a := 3, b := 4, wa := 7 } ∧
    operandsRRW (machine [1107, 4, 4, 7]) I I P = .ok { a := 4, b := 4, wa := 7 } ∧
    (3 : Word).toInt < (4 : Word).toInt ∧ (4 : Word).toInt ≤ (4 : Word).toInt := by decide

theorem test_witness_EqStoresEquality :
    operandsRRW (machine [1108, 4, 4, 7]) I I P = .ok { a := 4, b := 4, wa := 7 } ∧
    operandsRRW (machine [1108, -1, wmax, 7]) I I P = .ok { a := -1, b := wmax, wa := 7 } ∧
    (-1 : Word).toInt ≠ wmax.toInt := by decide

theorem test_witness_InStoresControlLaw :
    (machine [3, 5]).params.peripheral = .arcade ∧ Targets (machine [3, 5]) 0 P 5 ∧
    (machine [3, 5]).pc + 2 ≤ addrMax ∧
    (0 : Word).toInt =
      ((machine [3, 5]).display.ball.1.toInt - (machine [3, 5]).display.paddle.1.toInt).sign :=
  ⟨rfl, operandW_ok_iff.1 (by decide), by decide, by decide⟩

/-- The other two signs of the control law, at the widest difference and at -1. -/
theorem test_witness_control_law_signs :
    (1 : Word).toInt = (wmax.toInt - wmin.toInt).sign ∧ (-1 : Word).toInt = (0 - (1 : Word).toInt).sign := by
  decide

theorem test_witness_InStoresFreshDraw :
    (machineWith genericParams [3, 5]).params.peripheral = .generic ∧
    Targets (machineWith genericParams [3, 5]) 0 P 5 ∧
    (machineWith genericParams [3, 5]).pc + 2 ≤ addrMax :=
  ⟨rfl, operandW_ok_iff.1 (by decide), by decide⟩

theorem test_witness_OutSendsItsOperand :
    Reads (machine [4, 0]) 0 P 4 ∧ (machine [4, 0]).pc + 2 ≤ addrMax ∧
    (machine [4, 0]).params.peripheral = .arcade ∧
    Reads (machineWith genericParams [4, 0]) 0 P 4 ∧
    (machineWith genericParams [4, 0]).params.peripheral = .generic :=
  ⟨operandR_ok_iff.1 (by decide), by decide, rfl, operandR_ok_iff.1 (by decide), rfl⟩

/-- Taken to target 0, taken to a negative target, not taken, for JT; the same words serve JF. -/
theorem test_witness_jumps :
    operandsRR (machine [1105, 1, 0]) I I = .ok (1, 0) ∧ (1 : Word).toInt ≠ 0 ∧
    (0 : Int) ≤ (0 : Word).toInt ∧ operandsRR (machine [1105, 1, -1]) I I = .ok (1, -1) ∧
    (-1 : Word).toInt < 0 ∧ operandsRR (machine [1105, 0, 7]) I I = .ok (0, 7) ∧
    (0 : Word).toInt = 0 ∧ (machine [1105, 0, 7]).pc + 3 ≤ addrMax := by decide

theorem test_witness_JtJumpsIfNonzero :
    Reads (machine [1105, 1, 0]) 0 I 1 ∧ Reads (machine [1105, 1, 0]) 1 I 0 :=
  have h : operandsRR (machine [1105, 1, 0]) I I = .ok (1, 0) := by decide
  operandsRR_ok_iff.1 h

theorem test_witness_JfJumpsIfZero :
    Reads (machine [1106, 0, 9]) 0 I 0 ∧ Reads (machine [1106, 0, 9]) 1 I 9 :=
  have h : operandsRR (machine [1106, 0, 9]) I I = .ok (0, 9) := by decide
  operandsRR_ok_iff.1 h

/-- Jumps that are not taken at a negative target, in the middle of memory (JumpFaults, last two clauses). -/
theorem test_witness_JumpFaults_not_taken :
    operandsRR (machine [1105, 0, -5]) I I = .ok (0, -5) ∧ (machine [1105, 0, -5]).pc + 3 ≤ addrMax ∧
    operandsRR (machine [1106, 1, -5]) I I = .ok (1, -5) ∧ (machine [1106, 1, -5]).pc + 3 ≤ addrMax := by
  decide

/-- A jump that is not taken, whose advance passes the top of memory (JumpFaults, third and fourth clause). -/
theorem test_witness_JumpFaults :
    Reads (topMachine [1105, 0, 7]) 0 I 0 ∧ Reads (topMachine [1105, 0, 7]) 1 I 7 ∧
    addrMax < (topMachine [1105, 0, 7]).pc + 3 :=
  have h : operandsRR (topMachine [1105, 0, 7]) I I = .ok (0, 7) := by decide
  ⟨(operandsRR_ok_iff.1 h).1, (operandsRR_ok_iff.1 h).2, by decide⟩

theorem test_witness_ArbAdjustsBase :
    Reads (machine [109, -5]) 0 I (-5) ∧
    ResultIs (machine [109, -5]) ((machine [109, -5]).rb.toInt + (-5 : Word).toInt) (-5) ∧
    (machine [109, -5]).pc + 2 ≤ addrMax :=
  ⟨operandR_ok_iff.1 (by decide), .inl ⟨by decide, by decide⟩, by decide⟩

theorem test_witness_HltHalts :
    0 ≤ (22299 : Word).toInt ∧ (22299 : Word).toNat % 100 = 99 ∧
    (topMachine [199]).runState = .running ∧ (topMachine [199]).pc ≤ addrMax ∧
    ((topMachine [199]).mem.read (topMachine [199]).pc).toNat % 100 = 99 := by decide

/-- The last Word, the first integer past it, and the two policies. -/
theorem test_witness_ArithResult :
    inWord wmax.toInt ∧ ¬ inWord (wmax.toInt + 1) ∧ ¬ inWord (wmin.toInt - 1) ∧
    (machine []).params.overflow = .fault ∧ (machineWith wrapping []).params.overflow = .wrap := by
  decide

theorem test_witness_ArithResult_cause :
    exec (.add I I P) (machine [1101, wmax, 1, 7]) = .next (after (machine [1101, wmax, 1, 7])) ∧
    (machine [1101, wmax, 1, 7]).haltCause = .none ∧
    (after (machine [1101, wmax, 1, 7])).haltCause = .overflow 1101 := ⟨rfl, rfl, by decide⟩

/-- A storing, an input, an output, a jump, a base and a halt instruction that answer a next state. -/
theorem test_witness_frames :
    exec (.add I I P) (machine [1101, 3, 4, 7]) = .next (after (machine [1101, 3, 4, 7])) ∧
    exec (.inp P) (machine [3, 5]) = .next (after (machine [3, 5])) ∧
    exec (.out I) (machine [104, 5]) = .next (after (machine [104, 5])) ∧
    exec (.jt I I) (machine [1105, 1, 7]) = .next (after (machine [1105, 1, 7])) ∧
    exec (.arb I) (machine [109, 5]) = .next (after (machine [109, 5])) ∧
    exec .hlt (machine [99]) = .next (after (machine [99])) := ⟨rfl, rfl, rfl, rfl, rfl, rfl⟩

/-- R10 at both ends of the address space. -/
theorem test_witness_AddressCheck :
    inAddr 0 ∧ inAddr 9223372036854775807 ∧ ¬ inAddr (-1) ∧ ¬ inAddr 9223372036854775808 := by decide

/-- Raw operand 0 and -1, in position mode and relative to 0, and a relative sum past the top. -/
theorem test_witness_ReadValueOfEachMode :
    inAddr (0 : Word).toInt ∧ ¬ inAddr (-1 : Word).toInt ∧
    ¬ inAddr (wmax.toInt + (1 : Word).toInt) ∧ inAddr ((-1 : Word).toInt + (1 : Word).toInt) := by
  decide

/-- The lowest invalid slot is slot 2, after two modes; and the permissive setting. -/
theorem test_witness_InvalidMode :
    (machine [30001]).params.invalidMode = .fault ∧
    (Instr.add P P (.invalid 3)).modes[2]? = some (.invalid 3) ∧
    (∀ j < 2, ∃ m, (Instr.add P P (.invalid 3)).modes[j]? = some (.mode m)) ∧
    (machineWith permissive [301]).params.invalidMode = .asPosition :=
  ⟨rfl, rfl, fun j hj => ⟨.position, by interval_cases j <;> rfl⟩, rfl⟩

theorem test_witness_ImmediateWrite :
    (machine [11101, 1, 2, 3]).params.immWrite = .fault ∧
    Reads (machine [11101, 1, 2, 3]) 0 I 1 ∧ Reads (machine [11101, 1, 2, 3]) 1 I 2 ∧
    RawIs (machine [11101, 1, 2, 3]) 2 3 ∧ RawIs (machine [103, 5]) 0 5 ∧
    (machineWith permissive [11101]).params.immWrite = .asPosition :=
  ⟨rfl, slot_reads_iff.2 ⟨.immediate, by decide, by decide⟩,
    slot_reads_iff.2 ⟨.immediate, by decide, by decide⟩, ⟨by decide, by decide⟩,
    ⟨by decide, by decide⟩, rfl⟩

/-- Slot 0 at ADDR_MAX, slot 1 past it. -/
theorem test_witness_SlotPastTheTopFaults :
    ModesStand (topMachine [1105, 1]) (.jt I I) ∧ 1 < (Instr.jt I I).opcode.slots ∧
    EarlierSlotsRead (topMachine [1105, 1]) (.jt I I) 1 ∧
    addrMax < (topMachine [1105, 1]).pc + 1 + 1 := by
  refine ⟨?_, by decide, ?_, by decide⟩
  · intro f hf
    simp only [Instr.modes, List.mem_cons, List.not_mem_nil, or_false, or_self] at hf
    exact ⟨.immediate, .inl hf⟩
  · intro j f hj hf
    interval_cases j
    cases hf
    exact ⟨1, slot_reads_iff.2 ⟨.immediate, by decide, by decide⟩⟩

/-- A write slot's address of -5, relative, after two readable slots (B4). -/
theorem test_witness_OperandAddressFaults :
    ModesStand { machine [21101, 0, 5, 0] with rb := -5 } (.add I I R) ∧
    (Instr.add I I R).opcode.roles[2]? = some .write ∧ (Instr.add I I R).modes[2]? = some R ∧
    EarlierSlotsRead { machine [21101, 0, 5, 0] with rb := -5 } (.add I I R) 2 ∧
    AddressOf { machine [21101, 0, 5, 0] with rb := -5 } .write 2 R (-5) ∧ ¬ inAddr (-5) := by
  refine ⟨?_, rfl, rfl, ?_, ⟨.relative, 0, .inl rfl, ⟨by decide, by decide⟩, by decide⟩, by decide⟩
  · intro f hf
    simp only [Instr.modes, List.mem_cons, List.not_mem_nil, or_false] at hf
    rcases hf with rfl | rfl | rfl
    · exact ⟨.immediate, .inl rfl⟩
    · exact ⟨.immediate, .inl rfl⟩
    · exact ⟨.relative, .inl rfl⟩
  · intro j f hj hf
    interval_cases j
    · cases hf
      exact ⟨0, slot_reads_iff.2 ⟨.immediate, by decide, by decide⟩⟩
    · cases hf
      exact ⟨5, slot_reads_iff.2 ⟨.immediate, by decide, by decide⟩⟩

/-- WORD_MAX + 1, WORD_MAX * WORD_MAX and rb + a past the range, under the fault policy. -/
theorem test_witness_OverflowFaults :
    (machine [1101, wmax, wmax, 7]).params.overflow = .fault ∧
    Reads (machine [1101, wmax, wmax, 7]) 0 I wmax ∧ Reads (machine [1101, wmax, wmax, 7]) 1 I wmax ∧
    Targets (machine [1101, wmax, wmax, 7]) 2 P 7 ∧ ¬ inWord (wmax.toInt + wmax.toInt) ∧
    ¬ inWord (wmax.toInt * wmax.toInt) ∧
    ¬ inWord ((State.rb { machine [109, wmax] with rb := 1 }).toInt + wmax.toInt) := by
  have h : operandsRRW (machine [1101, wmax, wmax, 7]) I I P =
    .ok { a := wmax, b := wmax, wa := 7 } := by decide
  obtain ⟨h0, h1, h2⟩ := operandsRRW_ok_iff.1 h
  exact ⟨rfl, h0, h1, h2, by decide, by decide, by decide⟩

/-- Four words, and two words, ending at ADDR_MAX. -/
theorem test_witness_AdvancePastTheTopFaults :
    addrMax < (topMachine [1101, 3, 4, 7]).pc + 4 ∧
    operandsRRW (topMachine [1101, 3, 4, 7]) I I P = .ok { a := 3, b := 4, wa := 7 } ∧
    addrMax < (topMachine [3, 5]).pc + 2 ∧ operandW (topMachine [3, 5]) P = .ok 5 ∧
    operandR (topMachine [104, 5]) I = .ok 5 := by decide

theorem test_witness_MemoryReadAfterWrite :
    Memory.wf [(5, 1)] ∧ (0 : Nat) ≠ addrMax ∧ addrMax ≤ addrMax := by decide

theorem test_witness_MemoryIsItsReads : Memory.wf [(0, 1), (addrMax, -1)] := by decide

/-- ADD at 0 stores 99, HLT, at address 4. -/
theorem test_witness_StoreIsSeenByTheNextFetch :
    (machine [1101, 90, 9, 4]).runState = .running ∧
    operandsRRW (machine [1101, 90, 9, 4]) I I P = .ok { a := 90, b := 9, wa := 4 } ∧
    ResultIs (machine [1101, 90, 9, 4]) (90 + 9) 99 ∧ decode 99 = .ok .hlt ∧
    exec (.add I I P) (machine [1101, 90, 9, 4]) = .next (after (machine [1101, 90, 9, 4])) :=
  ⟨rfl, by decide, .inl ⟨by decide, by decide⟩, by decide, rfl⟩

/-- A display in each phase, the last with and without the sentinel. -/
theorem test_witness_EmitOutputPhases :
    (fed []).phase = .expectX ∧ (fed [4]).phase = .expectY ∧ (fed [-1, 0]).phase = .expectTile ∧
    (fed [-1, 0]).pendX.toInt = -1 ∧ (fed [4, 6]).pendX.toInt ≠ -1 := by decide

theorem test_witness_SentinelTripleOnlyScores :
    (fed [4, 6, 2]).phase = .expectX ∧ (-1 : Word).toInt = -1 := by decide

theorem test_witness_GridIsAFiniteMap : ((5, 7) : Word × Word) ≠ (7, 5) ∧ Grid.wf [((5, 7), 2)] := by
  decide

theorem test_witness_ControlLawTracksTheBall :
    (fed [10, 0, 3, 12, 5, 4]).paddle.1.toInt < (fed [10, 0, 3, 12, 5, 4]).ball.1.toInt ∧
    (fed [12, 0, 3, 10, 5, 4]).ball.1.toInt < (fed [12, 0, 3, 10, 5, 4]).paddle.1.toInt ∧
    (fed []).paddle.1.toInt = (fed []).ball.1.toInt := by decide

theorem test_witness_ResetLoadsProgram :
    (State.load Params.default [99, -1]).isSome = true ∧ Params.default.peripheral = .arcade := by
  decide

theorem test_witness_HostMoves :
    State.reset.runState = .ready ∧ (machine []).runState ≠ .ready ∧ addrMax < addrMax + 1 := by decide

end Sys2Proof.Tests
end

section
/-! PROOFS. The statements of 00_scope.md: the parameters and the trace of a step (R6, R29, R32), the
wrapped Word (R12), the grid as a finite map (R13, R119) and the address check (R10). -/

namespace Sys2Proof.Machine

/-- R29, R75: a commit adds the event of IN or OUT to the trace's end, and no other instruction's event. -/
theorem Commits.trace {s t : State} {i : Instr} (h : Commits s i t) :
    t.trace = s.trace ∨ ∃ e, t.trace = s.trace ++ [e] := by
  cases h with
  | store => exact .inl (by simp)
  | inp => exact .inr ⟨.inp (inputValue s), by simp⟩
  | out _ a => exact .inr ⟨.out a, by simp⟩
  | jump => exact .inl (by simp)
  | base => exact .inl (by simp)

/-- Settles O20, by what one step can do: only a commit touches the trace, and nothing the parameters. -/
theorem stepKeepsParamsAndAppendsTrace : Obligations.StepKeepsParamsAndAppendsTrace := by
  intro s t h
  rcases step_cases h with ⟨-, rfl⟩ | ⟨-, c, -, rfl⟩ | ⟨-, i, -, hc⟩ | ⟨-, rfl⟩
  · exact ⟨start_params s, .inl (start_trace s)⟩
  · exact ⟨takeHalt_params s c, .inl (takeHalt_trace s c)⟩
  · obtain ⟨-, -, hparams, -⟩ := hc.status
    exact ⟨hparams, hc.trace⟩
  · exact ⟨rfl, .inl rfl⟩

/-- Settles O37: the congruence of `eq_wrap64_iff`, with its multiple of 2^64 said as a divisibility. -/
theorem wrapIsTheCongruentWord : Obligations.WrapIsTheCongruentWord := by
  intro v r
  rw [eq_wrap64_iff]
  constructor
  · rintro ⟨k, hk⟩
    exact ⟨k, by rw [hk]; ring⟩
  · rintro ⟨k, hk⟩
    exact ⟨k, by linarith⟩

/-- Settles O56, from the laws of the grid's cell list. -/
theorem gridIsAFiniteMap : Obligations.GridIsAFiniteMap := by
  intro g p q v
  exact ⟨grid_find_put_same g p v, grid_find_put_other g v, fun hg => grid_put_wf hg p v, rfl⟩

/-- Settles O42: the check's two outcomes, inside and outside 0..ADDR_MAX. -/
theorem addressCheck : Obligations.AddressCheck :=
  fun _ => ⟨addrcheck_ok, addrcheck_error⟩

end Sys2Proof.Machine
end

section
/-! PROOFS. The statements of 10_state.md: the machine's invariant (R17, R21, R24), run state and halt
cause (R20, R21), which instruction changes which state (R19, R24, R27, R29), memory as the map it stands for
(R24, R39) and the reset values (R30). -/

namespace Sys2Proof.Machine

/-! ## Memory as the map it stands for -/

/-- In the canonical order an entry hides no later one, so every entry is found. -/
theorem cellsFind_of_mem {κ : Type} {rank : κ → Nat} {cs : List (κ × Word)} (h : cellsRising rank cs)
    {c : κ × Word} (hc : c ∈ cs) : cellsFind rank (rank c.1) cs = some c.2 := by
  induction cs with
  | nil => cases hc
  | cons d cs ih =>
    obtain ⟨hd, hcs⟩ := List.pairwise_cons.1 h
    rcases List.mem_cons.1 hc with rfl | hc
    · exact if_pos rfl
    · exact (if_neg (hd c hc).ne).trans (ih hcs hc)

/-- R38: a canonical memory lists the addresses that read other than the default, with their Words. -/
theorem mem_iff_read {m : Memory} (hm : m.wf) (c : Nat × Word) :
    c ∈ m ↔ c.1 ≤ addrMax ∧ m.read c.1 = c.2 ∧ c.2 ≠ memDefault := by
  obtain ⟨hrising, hentries⟩ := hm
  constructor
  · intro hc
    have hfind : cellsFind id c.1 m = some c.2 := cellsFind_of_mem hrising hc
    exact ⟨(hentries c hc).1, by rw [Memory.read, hfind, Option.getD_some], (hentries c hc).2⟩
  · rintro ⟨-, hread, hne⟩
    rw [Memory.read] at hread
    cases hfind : cellsFind id c.1 m with
    | none => exact absurd (by rw [← hread, hfind, Option.getD_none]) hne
    | some v =>
      obtain ⟨d, hd, hkey, rfl⟩ := mem_of_cellsFind hfind
      rw [hfind, Option.getD_some] at hread
      rwa [← Prod.ext hkey hread]

/-- R24, R39: two canonical memories that read alike list the same entries, in the one rising order. -/
theorem memory_ext {m n : Memory} (hm : m.wf) (hn : n.wf)
    (h : ∀ a, a ≤ addrMax → m.read a = n.read a) : m = n := by
  have hirrefl : Std.Irrefl fun c d : Nat × Word => id c.1 < id d.1 := ⟨fun c => lt_irrefl c.1⟩
  have hasymm : Std.Antisymm fun c d : Nat × Word => id c.1 < id d.1 :=
    ⟨fun _ _ hcd hdc => absurd hcd hdc.asymm⟩
  refine List.Pairwise.eq_of_mem_iff hm.1 hn.1 fun c => ?_
  rw [mem_iff_read hm, mem_iff_read hn]
  exact and_congr_right fun hc => by rw [h c.1 hc]

/-- Settles O52: canonical memories are determined by their reads, and a write keeps the form. -/
theorem memoryIsItsReads : Obligations.MemoryIsItsReads :=
  ⟨fun _ _ hm hn h => memory_ext hm hn h, fun _ _ v hm ha => write_wf hm ha v⟩

/-! ## What a commit may change, by instruction -/

/-- R19, R92: only ARB commits a new rb. -/
theorem Commits.rb_eq_or {s t : State} {i : Instr} (h : Commits s i t) :
    t.rb = s.rb ∨ i.opcode = .arb := by
  cases h with
  | store => exact .inl rfl
  | inp => exact .inl (afterInput_rb s)
  | out _ a => exact .inl (emitOutput_rb s a)
  | jump => exact .inl rfl
  | base => exact .inr rfl

/-- R29: only IN and OUT commit an event. -/
theorem Commits.trace_eq_or {s t : State} {i : Instr} (h : Commits s i t) :
    t.trace = s.trace ∨ i.opcode = .inp ∨ i.opcode = .out := by
  cases h with
  | store => exact .inl (List.append_nil _)
  | inp => exact .inr (.inl rfl)
  | out => exact .inr (.inr rfl)
  | jump => exact .inl (List.append_nil _)
  | base => exact .inl (List.append_nil _)

/-- R131: only OUT commits a change of the display. -/
theorem Commits.display_eq_or {s t : State} {i : Instr} (h : Commits s i t) :
    t.display = s.display ∨ i.opcode = .out := by
  cases h with
  | store => exact .inl rfl
  | inp => exact .inl (afterInput_display s)
  | out => exact .inr rfl
  | jump => exact .inl rfl
  | base => exact .inl rfl

/-- R61, R75: only an instruction with a write slot commits a change of memory. -/
theorem Commits.mem_eq_or {s t : State} {i : Instr} (h : Commits s i t) :
    t.mem = s.mem ∨ i.opcode ∈ [Opcode.add, .mul, .inp, .lt, .eq] := by
  cases h with
  | store _ _ _ _ _ shape =>
    obtain ⟨m0, m1, rfl | rfl | rfl | rfl⟩ := shape <;> exact .inr (by simp [Instr.opcode])
  | inp => exact .inr (by simp [Instr.opcode])
  | out _ a => exact .inl (emitOutput_mem s a)
  | jump => exact .inl rfl
  | base => exact .inl rfl

/-- Settles O22: a halt changes none of the four, and a commit changes each by its own instructions only. -/
theorem whoMayChangeWhat : Obligations.WhoMayChangeWhat := by
  intro i s t h
  rcases exec_cases h with ⟨c, -, rfl⟩ | hc
  · exact ⟨(absurd (takeHalt_rb s c) ·), (absurd (takeHalt_trace s c) ·),
      (absurd (takeHalt_display s c) ·), (absurd (takeHalt_mem s c) ·)⟩
  · exact ⟨hc.rb_eq_or.resolve_left, hc.trace_eq_or.resolve_left, hc.display_eq_or.resolve_left,
      hc.mem_eq_or.resolve_left⟩

/-! ## The invariant -/

/-- R24: a commit stores at an address, so it keeps memory canonical. -/
theorem Commits.mem_wf {s t : State} {i : Instr} (h : Commits s i t) (hm : Memory.wf s.mem) :
    Memory.wf t.mem := by
  cases h with
  | store _ _ _ v _ _ target => exact write_wf hm (targets_le target) v
  | inp _ _ _ target =>
    rw [← afterInput_mem s] at hm
    exact write_wf hm (targets_le target) _
  | out _ a => exact (emitOutput_mem s a).symm ▸ hm
  | jump => exact hm
  | base => exact hm

/-- R82, R121: under either peripheral an output keeps the grid canonical. -/
theorem emitOutput_display_grid_wf {s : State} (hg : Grid.wf s.display.grid) (v : Word) :
    Grid.wf (emitOutput s v).display.grid := by
  cases hp : s.params.peripheral with
  | arcade => rw [emitOutput_display_arcade hp]; exact emitOutput_grid_wf s.params hg v
  | generic => rwa [emitOutput_generic hp]

/-- R13, R119: a commit keeps the grid canonical. -/
theorem Commits.grid_wf {s t : State} {i : Instr} (h : Commits s i t) (hg : Grid.wf s.display.grid) :
    Grid.wf t.display.grid := by
  cases h with
  | store => exact hg
  | inp => rwa [commit_display, afterInput_display]
  | out _ a => exact emitOutput_display_grid_wf hg a
  | jump => exact hg
  | base => exact hg

/-- R20, R144: the start of the run leaves the cause None, as Running asks. -/
theorem start_inv {s : State} (hs : Inv s) (hr : s.runState = .ready) : Inv s.start where
  mem := hs.mem
  grid := hs.grid
  pc := hs.pc
  cause := by simp [hs.cause, hr]

/-- R21, R97: a halt with a cause keeps the invariant, whatever the run state before it. -/
theorem takeHalt_inv {s : State} (hs : Inv s) {c : HaltCause} (hc : c ≠ .none) :
    Inv (takeHalt s c) where
  mem := hs.mem
  grid := hs.grid
  pc := hs.pc
  cause := by simp [hc]

/-- R17, R24, R75: a commit keeps the invariant. -/
theorem Commits.inv {s t : State} {i : Instr} (h : Commits s i t) (hs : Inv s) : Inv t := by
  obtain ⟨hrun, hcause, -, hpc⟩ := h.status
  exact ⟨h.mem_wf hs.mem, h.grid_wf hs.grid, hpc, by rw [hrun, hcause]; exact hs.cause⟩

/-- Settles O14, by what one step can do: each of the four outcomes keeps the invariant. -/
theorem stepKeepsInv : Obligations.StepKeepsInv := by
  intro s t hs h
  rcases step_cases h with ⟨hr, rfl⟩ | ⟨-, c, hc, rfl⟩ | ⟨-, i, -, hi⟩ | ⟨-, rfl⟩
  · exact start_inv hs hr
  · exact takeHalt_inv hs hc
  · exact hi.inv hs
  · exact hs

/-! ## The run state and the halt cause -/

/-- R144: a step asked of a halted machine answers the same state. -/
theorem step_halted {s : State} (hr : s.runState = .halted) : step s = .next s := by
  simp only [step, hr]

/-- Settles O8, by induction on the number of steps. -/
theorem haltedIsTerminal : Obligations.HaltedIsTerminal := by
  intro n s hr
  induction n with
  | zero => rfl
  | succ n ih =>
    have hstep : core.step s = .next s := step_halted hr
    simpa only [Host.Core.run, hstep] using ih

/-- Settles O9, by what one step can do from each run state. -/
theorem runStateTransitions : Obligations.RunStateTransitions := by
  intro s t h
  rcases step_cases h with ⟨hr, rfl⟩ | ⟨hr, c, -, rfl⟩ | ⟨hr, i, -, hi⟩ | ⟨hr, rfl⟩
  · exact ⟨fun _ => rfl, by simp [hr], by simp [hr]⟩
  · exact ⟨by simp [hr], fun _ => .inr (takeHalt_runState s c), by simp [hr]⟩
  · obtain ⟨hrun, -⟩ := hi.status
    exact ⟨by simp [hr], fun _ => .inl (hrun.trans hr), by simp [hr]⟩
  · exact ⟨by simp [hr], by simp [hr], fun _ => rfl⟩

/-- Settles O12: of the outcomes of a step only the halt writes the cause. -/
theorem haltCauseIsWrittenAtTheHaltOnly : Obligations.HaltCauseIsWrittenAtTheHaltOnly := by
  intro s t h hne
  rcases step_cases h with ⟨-, rfl⟩ | ⟨hr, c, hc, rfl⟩ | ⟨-, i, -, hi⟩ | ⟨-, rfl⟩
  · exact absurd (start_haltCause s) hne
  · exact ⟨hr, takeHalt_runState s c, hc⟩
  · obtain ⟨-, hcause, -⟩ := hi.status
    exact absurd hcause hne
  · exact absurd rfl hne

/-! ## Reset -/

/-- R30, R140: a machine reset with the empty program meets the invariant under every parameter setting. -/
theorem resetWith_inv (p : Params) : Inv (State.resetWith p) where
  mem := nil_wf
  grid := List.Pairwise.nil
  pc := Nat.zero_le _
  cause := by simp [State.resetWith]

/-- Settles O15, at the default parameters. -/
theorem resetHasInv : Obligations.ResetHasInv := resetWith_inv Params.default

/-- Settles O18: the trace is empty, which replays to the reset display and holds no draw. -/
theorem resetHasHistories : Obligations.ResetHasHistories :=
  fun _ => ⟨fun _ => rfl, fun _ => rfl⟩

/-- Settles O58: each field as `State.resetWith` gives it, and the empty memory read anywhere. -/
theorem resetValues : Obligations.ResetValues :=
  ⟨rfl, rfl, rfl, rfl, rfl, rfl, rfl, rfl, rfl, rfl, read_nil⟩

end Sys2Proof.Machine
end

section
/-! PROOFS. The statements of 20_memory.md: reading after a write (R37), the next fetch after a store
(R51, R52), and the halts on an address that is none (R40), by the first slot that fails (R100). -/

namespace Sys2Proof.Machine

/-! ## Memory and the next fetch -/

/-- Settles O51, from the two laws of a read after a write. -/
theorem memoryReadAfterWrite : Obligations.MemoryReadAfterWrite :=
  fun m a v => ⟨read_write_same m a v, fun _ hx => read_write_other m v hx⟩

/-- R74: in Running, a step executes the instruction that the Word at pc decodes to. -/
theorem step_eq_exec {s : State} {i : Instr} (hr : s.runState = .running) (hp : s.pc ≤ addrMax)
    (hd : decode (s.mem.read s.pc) = .ok i) : step s = exec i s := by
  simp only [step, hr, cycle, fetch_ok hp hd]

/-- R75, R77: ADD with both operands, a target, a result and a next pc commits one store. -/
theorem exec_add_commits {m0 m1 m2 : ModeField} {s : State} {a b r : Word} {wa : Nat}
    (ha : Reads s 0 m0 a) (hb : Reads s 1 m1 b) (hw : Targets s 2 m2 wa)
    (hres : ResultIs s (a.toInt + b.toInt) r) (hp : s.pc + 4 ≤ addrMax) :
    exec (.add m0 m1 m2) s = .next (commit s { store := some (wa, r) } (s.pc + 4)) := by
  have hops : operandsRRW s m0 m1 m2 = .ok { a := a, b := b, wa := wa } :=
    operandsRRW_ok_iff.2 ⟨ha, hb, hw⟩
  have hnpc : nextPc s 4 = .ok (s.pc + 4) := nextPc_ok_iff.2 ⟨rfl, hp⟩
  refine finish_ok ?_
  simp only [hops, arithResult_ok_iff.2 hres, hnpc, ok_bind, pure_eq_ok]

/-- Settles O53: the target pc + 4 is an address, so ADD commits, and the fetch at pc + 4 reads `r`. -/
theorem storeIsSeenByTheNextFetch : Obligations.StoreIsSeenByTheNextFetch := by
  intro m0 m1 m2 s t a b r j hr ha hb hw hres hd h
  have hp : s.pc + 4 ≤ addrMax := targets_le hw
  rw [exec_add_commits ha hb hw hres hp] at h
  cases h
  exact step_eq_exec hr hp (by simpa using hd)

/-! ## The first slot that fails -/

/-- R62 to R64: slot `k` with mode field `f`, whose mode stands, fails with `c` in its role. -/
inductive SlotFails (s : State) (k : Nat) (f : ModeField) (c : HaltCause) : Role → Prop where
  | read {m : Mode} (mode : ModeIs s f m) (fails : readSlot s k m = .error c) :
      SlotFails s k f c .read
  | write {m : Mode} (mode : ModeIs s f m) (fails : writeSlot s k m = .error c) :
      SlotFails s k f c .write

/-- R66: a mode field stands for at most one mode. -/
theorem modeIs_unique {s : State} {f : ModeField} {m m' : Mode} (h : ModeIs s f m)
    (h' : ModeIs s f m') : m = m' :=
  Except.ok.inj ((slotMode_ok_iff (i := 0).2 h).symm.trans (slotMode_ok_iff.2 h'))

theorem SlotFails.readSlot_eq {s : State} {k : Nat} {f : ModeField} {c : HaltCause} {m : Mode}
    (h : SlotFails s k f c .read) (hm : ModeIs s f m) : readSlot s k m = .error c := by
  cases h with
  | read mode fails => rwa [modeIs_unique hm mode]

theorem SlotFails.writeSlot_eq {s : State} {k : Nat} {f : ModeField} {c : HaltCause} {m : Mode}
    (h : SlotFails s k f c .write) (hm : ModeIs s f m) : writeSlot s k m = .error c := by
  cases h with
  | write mode fails => rwa [modeIs_unique hm mode]

/-- R62: a slot past the top of memory fails with its own address, in either role. -/
theorem slotFails_past_top {s : State} {k : Nat} {f : ModeField} {m : Mode} (hm : ModeIs s f m)
    (h : addrMax < s.pc + 1 + k) (r : Role) :
    SlotFails s k f (.addressFault (s.pc + 1 + k)) r := by
  cases r with
  | read => exact .read hm (by rw [readSlot, rawOperand_error h, error_bind])
  | write => exact .write hm (by rw [writeSlot, rawOperand_error h, error_bind])

/-- R63, R64, R67: a slot whose operand or write address is no address fails with it. -/
theorem slotFails_addressOf {s : State} {k : Nat} {f : ModeField} {r : Role} {a : Int}
    (h : AddressOf s r k f a) (ha : ¬ inAddr a) : SlotFails s k f (.addressFault a) r := by
  obtain ⟨m, raw, hm, hraw, haddr⟩ := h
  have hfetch : rawOperand s k = .ok raw := rawOperand_ok_iff.2 hraw
  cases r with
  | read =>
    refine .read hm ?_
    cases m with
    | position | relative =>
      subst haddr
      simp only [readSlot, hfetch, ok_bind, readValue, addrcheck_error ha, error_bind]
    | immediate => exact absurd haddr.1 Role.noConfusion
  | write =>
    refine .write hm ?_
    cases m with
    | position | relative =>
      subst haddr
      simp only [writeSlot, hfetch, ok_bind, writeAddr, addrcheck_error ha]
    | immediate =>
      obtain ⟨-, hpolicy, rfl⟩ := haddr
      simp only [writeSlot, hfetch, ok_bind, writeAddr, hpolicy, addrcheck_error ha]

/-- R100: slot `k` of `i` is the first to fail, with `c`: every mode stands and the slots before read. -/
structure FirstSlotFails (s : State) (i : Instr) (k : Nat) (r : Role) (f : ModeField)
    (c : HaltCause) : Prop where
  stand : ModesStand s i
  role : i.opcode.roles[k]? = some r
  field : i.modes[k]? = some f
  earlier : EarlierSlotsRead s i k
  fails : SlotFails s k f c r

/-! ## What the operand functions answer at a failing slot -/

section
variable {s : State} {m0 m1 m2 : ModeField} {n0 n1 n2 : Mode} {c : HaltCause}

theorem operandR_error (h0 : SlotFails s 0 m0 c .read) (hm0 : ModeIs s m0 n0) :
    operandR s m0 = .error c := by
  rw [operandR, slotMode_ok_iff.2 hm0, ok_bind, h0.readSlot_eq hm0]

theorem operandW_error (h0 : SlotFails s 0 m0 c .write) (hm0 : ModeIs s m0 n0) :
    operandW s m0 = .error c := by
  rw [operandW, storeAddr, slotMode_ok_iff.2 hm0, ok_bind, h0.writeSlot_eq hm0]

theorem operandsRR_error_slot0 (h0 : SlotFails s 0 m0 c .read) (hm0 : ModeIs s m0 n0)
    (hm1 : ModeIs s m1 n1) : operandsRR s m0 m1 = .error c := by
  simp only [operandsRR, slotMode_ok_iff.2 hm0, slotMode_ok_iff.2 hm1, ok_bind,
    h0.readSlot_eq hm0, error_bind]

theorem operandsRR_error_slot1 {a : Word} (ha : Reads s 0 m0 a) (h1 : SlotFails s 1 m1 c .read)
    (hm0 : ModeIs s m0 n0) (hm1 : ModeIs s m1 n1) : operandsRR s m0 m1 = .error c := by
  have hread : readSlot s 0 n0 = .ok a := readSlot_of_reads ha (slotMode_ok_iff.2 hm0)
  simp only [operandsRR, slotMode_ok_iff.2 hm0, slotMode_ok_iff.2 hm1, ok_bind, hread,
    h1.readSlot_eq hm1, error_bind]

/-- R74, R100: with slot 2's mode standing, the roles R, R, W are the roles R, R and then the write slot. -/
theorem operandsRRW_eq_bind (hm2 : ModeIs s m2 n2) :
    operandsRRW s m0 m1 m2 = operandsRR s m0 m1 >>= fun o =>
      writeSlot s 2 n2 >>= fun wa => pure { a := o.1, b := o.2, wa := wa } := by
  simp only [operandsRRW, operandsRR, slotMode_ok_iff.2 hm2, ok_bind, bind_assoc, pure_bind]

theorem operandsRRW_error_of_operandsRR (h : operandsRR s m0 m1 = .error c) (hm2 : ModeIs s m2 n2) :
    operandsRRW s m0 m1 m2 = .error c := by
  rw [operandsRRW_eq_bind hm2, h, error_bind]

theorem operandsRRW_error_slot2 {a b : Word} (ha : Reads s 0 m0 a) (hb : Reads s 1 m1 b)
    (h2 : SlotFails s 2 m2 c .write) (hm2 : ModeIs s m2 n2) :
    operandsRRW s m0 m1 m2 = .error c := by
  rw [operandsRRW_eq_bind hm2, operandsRR_ok_iff (o := (a, b)).2 ⟨ha, hb⟩, ok_bind,
    h2.writeSlot_eq hm2, error_bind]

end

/-! ## The first failing slot of an instruction, by its roles -/

section
variable {s : State} {i : Instr} {k : Nat} {r : Role} {f m0 m1 m2 : ModeField} {c : HaltCause}

theorem FirstSlotFails.operandR_eq (h : FirstSlotFails s i k r f c) (hmodes : i.modes = [m0])
    (hroles : i.opcode.roles = [.read]) : operandR s m0 = .error c := by
  obtain ⟨hstand, hrole, hfield, -, hfails⟩ := h
  simp only [ModesStand, hmodes, hroles, List.forall_mem_cons] at hstand hrole hfield
  obtain ⟨⟨n0, hm0⟩, -⟩ := hstand
  match k with
  | 0 => cases hrole; cases hfield; exact operandR_error hfails hm0

theorem FirstSlotFails.operandW_eq (h : FirstSlotFails s i k r f c) (hmodes : i.modes = [m0])
    (hroles : i.opcode.roles = [.write]) : operandW s m0 = .error c := by
  obtain ⟨hstand, hrole, hfield, -, hfails⟩ := h
  simp only [ModesStand, hmodes, hroles, List.forall_mem_cons] at hstand hrole hfield
  obtain ⟨⟨n0, hm0⟩, -⟩ := hstand
  match k with
  | 0 => cases hrole; cases hfield; exact operandW_error hfails hm0

theorem FirstSlotFails.operandsRR_eq (h : FirstSlotFails s i k r f c) (hmodes : i.modes = [m0, m1])
    (hroles : i.opcode.roles = [.read, .read]) : operandsRR s m0 m1 = .error c := by
  obtain ⟨hstand, hrole, hfield, hearlier, hfails⟩ := h
  simp only [ModesStand, hmodes, hroles, List.forall_mem_cons] at hstand hrole hfield
  obtain ⟨⟨n0, hm0⟩, ⟨n1, hm1⟩, -⟩ := hstand
  match k with
  | 0 => cases hrole; cases hfield; exact operandsRR_error_slot0 hfails hm0 hm1
  | 1 =>
    cases hrole; cases hfield
    obtain ⟨a, ha⟩ := hearlier 0 m0 (by decide) (by simp [hmodes])
    exact operandsRR_error_slot1 ha hfails hm0 hm1

theorem FirstSlotFails.operandsRRW_eq (h : FirstSlotFails s i k r f c)
    (hmodes : i.modes = [m0, m1, m2]) (hroles : i.opcode.roles = [.read, .read, .write]) :
    operandsRRW s m0 m1 m2 = .error c := by
  obtain ⟨hstand, hrole, hfield, hearlier, hfails⟩ := h
  simp only [ModesStand, hmodes, hroles, List.forall_mem_cons] at hstand hrole hfield
  obtain ⟨⟨n0, hm0⟩, ⟨n1, hm1⟩, ⟨n2, hm2⟩, -⟩ := hstand
  match k with
  | 0 =>
    cases hrole; cases hfield
    exact operandsRRW_error_of_operandsRR (operandsRR_error_slot0 hfails hm0 hm1) hm2
  | 1 =>
    cases hrole; cases hfield
    obtain ⟨a, ha⟩ := hearlier 0 m0 (by decide) (by simp [hmodes])
    exact operandsRRW_error_of_operandsRR (operandsRR_error_slot1 ha hfails hm0 hm1) hm2
  | 2 =>
    cases hrole; cases hfield
    obtain ⟨a, ha⟩ := hearlier 0 m0 (by decide) (by simp [hmodes])
    obtain ⟨b, hb⟩ := hearlier 1 m1 (by decide) (by simp [hmodes])
    exact operandsRRW_error_slot2 ha hb hfails hm2

theorem finish_bind_error {α : Type} {x : Except HaltCause α} {g : α → Except HaltCause State}
    (h : x = .error c) : finish s (x >>= g) = .next (takeHalt s c) :=
  finish_error (by rw [h, error_bind])

/-- R97, R100: an instruction halts with the cause of its first failing slot, and changes nothing else. -/
theorem FirstSlotFails.exec_eq (h : FirstSlotFails s i k r f c) :
    exec i s = .next (takeHalt s c) := by
  cases i with
  | add | mul | lt | eq => exact finish_bind_error (h.operandsRRW_eq rfl rfl)
  | jt | jf => exact finish_bind_error (h.operandsRR_eq rfl rfl)
  | out | arb => exact finish_bind_error (h.operandR_eq rfl rfl)
  | inp => exact finish_bind_error (h.operandW_eq rfl rfl)
  | hlt => exact absurd h.role (by simp [Instr.opcode, Opcode.roles])

end

/-- R60, R61: an instruction has one mode field a used slot. -/
theorem modes_length (i : Instr) : i.modes.length = i.opcode.slots := by
  cases i <;> rfl

/-- Settles O46: the slot past the top is the first to fail, with its own address. -/
theorem slotPastTheTopFaults : Obligations.SlotPastTheTopFaults := by
  intro i s k hstand hk hearlier htop
  have hkm : k < i.modes.length := by rwa [modes_length]
  obtain ⟨m, hm⟩ := hstand i.modes[k] (List.getElem_mem hkm)
  have hfirst : FirstSlotFails s i k i.opcode.roles[k] i.modes[k] (.addressFault (s.pc + 1 + k)) :=
    { stand := hstand
      role := List.getElem?_eq_getElem hk
      field := List.getElem?_eq_getElem hkm
      earlier := hearlier
      fails := slotFails_past_top hm htop _ }
  exact hfirst.exec_eq

/-- Settles O47: the slot whose address is none is the first to fail, with that address. -/
theorem operandAddressFaults : Obligations.OperandAddressFaults := by
  intro i s k r f a hstand hrole hfield hearlier haddr ha
  have hfirst : FirstSlotFails s i k r f (.addressFault a) :=
    ⟨hstand, hrole, hfield, hearlier, slotFails_addressOf haddr ha⟩
  exact hfirst.exec_eq

end Sys2Proof.Machine
end

section
/-! PROOFS. The statements of 30_encoding.md: the instruction word's digits (R56 to R61, R65, R70), the words
the decoder rejects (R55, R59, R98), the frame of each instruction (R75, R97) and the order in which its
slots' modes, its writes and its advance are checked (R63, R66, R67, R100). -/

namespace Sys2Proof

/-! ## The digits of the canonical word -/

/-- R56: the mode digit of slot `k`, 0 for a slot the instruction does not use. -/
def Instr.slotDigit (i : Instr) (k : Nat) : Nat := (i.modes[k]?).elim 0 ModeField.digit

/-- R70: the canonical word packs the opcode's code and the three slots' digits. -/
theorem number_eq_packDigits (i : Instr) :
    i.number = packDigits i.opcode.code (i.slotDigit 0) (i.slotDigit 1) (i.slotDigit 2) := by
  cases i <;> rfl

theorem slotDigit_le_nine {i : Instr} (h : i.wellFormed = true) (k : Nat) : i.slotDigit k ≤ 9 := by
  unfold Instr.slotDigit
  cases hf : i.modes[k]? with
  | none => exact Nat.zero_le 9
  | some f => exact digit_le_nine (List.all_eq_true.1 h f (List.mem_of_getElem? hf))

theorem code_lt_hundred (o : Opcode) : o.code < 100 := by
  cases o <;> decide

/-- R8, R70: what was packed is read back, the opcode from the two low digits and each slot's digit from
its own place. -/
theorem packDigits_fields {c d0 d1 d2 : Nat} (hc : c < 100) (h0 : d0 ≤ 9) (h1 : d1 ≤ 9) (h2 : d2 ≤ 9) :
    packDigits c d0 d1 d2 % 100 = c ∧ digit (packDigits c d0 d1 d2) 2 = d0 ∧
      digit (packDigits c d0 d1 d2) 3 = d1 ∧ digit (packDigits c d0 d1 d2) 4 = d2 := by
  simp only [packDigits, digit, Nat.reducePow]
  omega

/-- R58, R65: the digit of a used slot stands for the slot's mode field. -/
theorem modeOfDigit_slotDigit {i : Instr} (h : i.wellFormed = true) {k : Nat} {f : ModeField}
    (hf : i.modes[k]? = some f) : modeOfDigit (i.slotDigit k) = f := by
  have hwf : f.wellFormed = true := List.all_eq_true.1 h f (List.mem_of_getElem? hf)
  rw [Instr.slotDigit, hf, Option.elim_some, modeOfDigit_of_wellFormed hwf]

/-- R65: an instruction is built from its opcode and the modes of its slots' digits. -/
theorem build_slotDigits {i : Instr} (h : i.wellFormed = true) :
    i.opcode.build (modeOfDigit (i.slotDigit 0)) (modeOfDigit (i.slotDigit 1))
      (modeOfDigit (i.slotDigit 2)) = i := by
  have hfield := fun k f => modeOfDigit_slotDigit h (k := k) (f := f)
  cases i with
  | add | mul | lt | eq => rw [hfield 0 _ rfl, hfield 1 _ rfl, hfield 2 _ rfl]; rfl
  | jt | jf => rw [hfield 0 _ rfl, hfield 1 _ rfl]; rfl
  | inp | out | arb => rw [hfield 0 _ rfl]; rfl
  | hlt => rfl

theorem number_lt {i : Instr} (h : i.wellFormed = true) : i.number < 100000 := by
  have h0 := slotDigit_le_nine h 0
  have h1 := slotDigit_le_nine h 1
  have h2 := slotDigit_le_nine h 2
  have hc := code_lt_hundred i.opcode
  rw [number_eq_packDigits, packDigits]
  omega

/-- R70: the canonical word holds its number, which five digits can write. -/
theorem encode_toNat {i : Instr} (h : i.wellFormed = true) : (encode i).toNat = i.number := by
  have hlt : i.number < 2 ^ 64 := (number_lt h).trans (by decide)
  rw [encode, BitVec.toNat_ofNat, Nat.mod_eq_of_lt hlt]

theorem encode_toInt_nonneg {i : Instr} (h : i.wellFormed = true) : 0 ≤ (encode i).toInt := by
  rw [toInt_nonneg_iff, encode_toNat h]
  exact (number_lt h).trans (by decide)

/-! ## What the decoder answers -/

/-- R56, R59, R65: the decoder accepts exactly the non-negative words whose opcode is an operation's. -/
theorem decode_eq_ok_iff {w : Word} {i : Instr} :
    decode w = .ok i ↔ 0 ≤ w.toInt ∧ ∃ o : Opcode, w.toNat % 100 = o.code ∧
      o.build (modeOfDigit (digit w.toNat 2)) (modeOfDigit (digit w.toNat 3))
        (modeOfDigit (digit w.toNat 4)) = i := by
  unfold decode
  split
  next hneg => simp [hneg]
  next hpos =>
    rw [and_iff_right (not_lt.1 hpos)]
    simp only [← opcodeOf_eq_some_iff]
    cases opcodeOf w.toNat <;> simp

/-- R55: the words rejected as negative. -/
theorem decode_eq_negativeWord_iff {w : Word} : decode w = .error .negativeWord ↔ w.toInt < 0 := by
  unfold decode
  split
  next hneg => simp [hneg]
  next hpos => cases opcodeOf w.toNat <;> simp [hpos]

/-- R59: the words rejected for their opcode. -/
theorem decode_eq_unrecognisedOpcode_iff {w : Word} {k : Nat} :
    decode w = .error (.unrecognisedOpcode k) ↔
      0 ≤ w.toInt ∧ k = w.toNat % 100 ∧ k ∉ [1, 2, 3, 4, 5, 6, 7, 8, 9, 99] := by
  unfold decode
  split
  next hneg => simp [hneg]
  next hpos =>
    rw [and_iff_right (not_lt.1 hpos)]
    cases ho : opcodeOf w.toNat with
    | none =>
      have hnone := (opcodeOf_eq_none_iff w.toNat).1 ho
      constructor
      · intro h
        cases h
        exact ⟨rfl, hnone⟩
      · rintro ⟨rfl, -⟩
        rfl
    | some o =>
      refine ⟨(fun h => by cases h), ?_⟩
      rintro ⟨rfl, hk⟩
      rw [(opcodeOf_eq_none_iff w.toNat).2 hk] at ho
      cases ho

/-- Settles O1: the canonical word's opcode and digits are those of the instruction. -/
theorem decodeEncodeRoundTrip : Obligations.DecodeEncodeRoundTrip := by
  intro i h
  obtain ⟨hcode, hd0, hd1, hd2⟩ := packDigits_fields (code_lt_hundred i.opcode)
    (slotDigit_le_nine h 0) (slotDigit_le_nine h 1) (slotDigit_le_nine h 2)
  rw [← number_eq_packDigits, ← encode_toNat h] at hcode hd0 hd1 hd2
  refine decode_eq_ok_iff.2 ⟨encode_toInt_nonneg h, i.opcode, hcode, ?_⟩
  rw [hd0, hd1, hd2]
  exact build_slotDigits h

theorem build_wellFormed (o : Opcode) {m0 m1 m2 : ModeField} (h0 : m0.wellFormed = true)
    (h1 : m1.wellFormed = true) (h2 : m2.wellFormed = true) : (o.build m0 m1 m2).wellFormed = true := by
  cases o <;> simp [Opcode.build, Instr.wellFormed, Instr.modes, h0, h1, h2]

/-- R56, R70: packing a number's opcode and its next one, two or three digits gives its low digits. -/
theorem packDigits_eq_mod {n c : Nat} (h : n % 100 = c) :
    packDigits c (digit n 2) 0 0 = n % 1000 ∧ packDigits c (digit n 2) (digit n 3) 0 = n % 10000 ∧
      packDigits c (digit n 2) (digit n 3) (digit n 4) = n % 100000 := by
  have h3 := mod_1000 n
  have h4 := mod_10000 n
  have h5 := mod_100000 n
  unfold packDigits
  omega

/-- R56, R60, R70: the instruction built from a number's opcode and digits has as its own number the opcode
and the used slots' digits, and none above them. -/
theorem number_build_digits {n : Nat} {o : Opcode} (h : n % 100 = o.code) :
    (o.build (modeOfDigit (digit n 2)) (modeOfDigit (digit n 3)) (modeOfDigit (digit n 4))).number =
      n % 10 ^ (2 + o.slots) := by
  obtain ⟨hone, htwo, hthree⟩ := packDigits_eq_mod h
  cases o with
  | add | mul | lt | eq => simp only [Opcode.build, Instr.number, modeOfDigit_digit]; exact hthree
  | jt | jf => simp only [Opcode.build, Instr.number, modeOfDigit_digit]; exact htwo
  | inp | out | arb => simp only [Opcode.build, Instr.number, modeOfDigit_digit]; exact hone
  | hlt => exact h.symm

/-- Settles O2: the decoder builds the instruction from the opcode and the digits of the word. -/
theorem decodeReadsOpcodeAndUsedDigits : Obligations.DecodeReadsOpcodeAndUsedDigits := by
  intro w i h
  obtain ⟨hpos, o, hcode, rfl⟩ := decode_eq_ok_iff.1 h
  have hwf := build_wellFormed o (modeOfDigit_wellFormed (digit_lt_ten w.toNat 2))
    (modeOfDigit_wellFormed (digit_lt_ten w.toNat 3)) (modeOfDigit_wellFormed (digit_lt_ten w.toNat 4))
  refine ⟨hwf, hpos, ?_⟩
  rw [encode_toNat hwf, build_opcode, number_build_digits hcode]

/-- R8: a digit depends on no higher place than its own. -/
theorem digit_congr {m n j k : Nat} (hk : k < j) (h : m % 10 ^ j = n % 10 ^ j) :
    digit m k = digit n k := by
  have hlow : m % 10 ^ (k + 1) = n % 10 ^ (k + 1) := Nat.ModEq.of_dvd (pow_dvd_pow 10 hk) h
  rw [pow_succ] at hlow
  rw [digit, digit, ← Nat.mod_mul_right_div_self, hlow, Nat.mod_mul_right_div_self]

/-- R56, R57: the decoder reads the five low digits of a non-negative word. -/
theorem decode_congr {v w : Word} (hv : 0 ≤ v.toInt) (hw : 0 ≤ w.toInt)
    (h : v.toNat % 10 ^ 5 = w.toNat % 10 ^ 5) : decode v = decode w := by
  have hop : v.toNat % 100 = w.toNat % 100 := Nat.ModEq.of_dvd (by decide) h
  simp only [decode, opcodeOf, if_neg (not_lt.2 hv), if_neg (not_lt.2 hw), hop,
    digit_congr (k := 2) (by decide) h, digit_congr (k := 3) (by decide) h,
    digit_congr (k := 4) (by decide) h]

/-- Settles O3: the digits the decoder reads are among the five low ones. -/
theorem highDigitsTakeNoPart : Obligations.HighDigitsTakeNoPart :=
  ⟨fun _ _ hv hw h => decode_congr hv hw h, by decide⟩

/-- Settles O5, by running the decoder on each word. -/
theorem sampleWordsDecode : Obligations.SampleWordsDecode := by
  unfold Obligations.SampleWordsDecode
  decide

end Sys2Proof

namespace Sys2Proof.Machine

/-! ## Words the decoder rejects, and words it accepts, at pc -/

/-- R59, R98: in Running, a rejected word halts with the whole word recorded. -/
theorem step_rejected {s : State} {w : Word} {e : DecodeReject} (hr : s.runState = .running)
    (hp : s.pc ≤ addrMax) (hw : s.mem.read s.pc = w) (he : decode w = .error e) :
    step s = .next (takeHalt s (.unrecognized w)) := by
  subst hw
  simp only [step, hr, cycle, fetch_rejected hp he]

/-- Settles O4, by the decoder's two rejections and the halt on a rejected word. -/
theorem decodeRejectsExactly : Obligations.DecodeRejectsExactly :=
  ⟨fun _ => ⟨decode_eq_negativeWord_iff, fun _ => decode_eq_unrecognisedOpcode_iff⟩,
    fun _ _ hr hp hw hneg => step_rejected hr hp hw (decode_eq_negativeWord_iff.2 hneg)⟩

/-- R59: a non-negative word is an instruction exactly when its opcode is an operation's. -/
theorem exists_decode_eq_ok_iff {w : Word} (hw : 0 ≤ w.toInt) :
    (∃ i : Instr, decode w = .ok i) ↔ w.toNat % 100 ∈ [1, 2, 3, 4, 5, 6, 7, 8, 9, 99] := by
  constructor
  · rintro ⟨i, hi⟩
    by_contra hop
    rw [decode_eq_unrecognisedOpcode_iff.2 ⟨hw, rfl, hop⟩] at hi
    cases hi
  · intro hop
    cases hd : decode w with
    | ok i => exact ⟨i, rfl⟩
    | error e =>
      cases e with
      | negativeWord => exact absurd (decode_eq_negativeWord_iff.1 hd) (not_lt.2 hw)
      | unrecognisedOpcode k =>
        obtain ⟨-, rfl, hk⟩ := decode_eq_unrecognisedOpcode_iff.1 hd
        exact absurd hop hk

/-- Settles O7: the opcodes accepted, and the halt on a word whose opcode is none of them. -/
theorem unrecognisedWordHalts : Obligations.UnrecognisedWordHalts :=
  ⟨fun _ => exists_decode_eq_ok_iff, fun _ _ hr hp hw hpos hop =>
    step_rejected hr hp hw (decode_eq_unrecognisedOpcode_iff.2 ⟨hpos, rfl, hop⟩)⟩

/-- Settles O6, by the fetch of the decoded instruction. -/
theorem stepRunsDecodedInstruction : Obligations.StepRunsDecodedInstruction :=
  fun _ _ => step_eq_exec

/-! ## Frames -/

/-- R97: an instruction halts and changes the status only, or commits. -/
theorem exec_halts_or_commits {i : Instr} {s t : State} (h : exec i s = .next t) :
    t = takeHalt s t.haltCause ∨ Commits s i t := by
  rcases exec_cases h with ⟨c, -, rfl⟩ | hc
  · exact .inl rfl
  · exact .inr hc

/-- R75: an instruction that uses a slot 2 commits one store, at that slot's target. -/
theorem Commits.of_slot2 {s t : State} {i : Instr} {m2 : ModeField} (h : Commits s i t)
    (hm : i.modes[2]? = some m2) :
    ∃ wa v npc, Targets s 2 m2 wa ∧ t = commit s { store := some (wa, v) } npc := by
  cases h with
  | store _ f wa v npc shape target =>
    obtain ⟨m0, m1, rfl | rfl | rfl | rfl⟩ := shape <;> cases hm <;> exact ⟨wa, v, npc, target, rfl⟩
  | jump _ npc shape => obtain ⟨m0, m1, rfl | rfl⟩ := shape <;> cases hm
  | inp | out | base => cases hm

/-- Settles O38: a halt changes the status only, and a commit stores at slot 2's target only. -/
theorem storingInstructionsFrame : Obligations.StoringInstructionsFrame := by
  intro i m0 m1 m2 s t hi h
  rcases exec_halts_or_commits h with ht | hc
  · rw [ht]
    exact ⟨rfl, rfl, rfl, rfl, rfl, fun _ _ => rfl, .inr rfl⟩
  · have hslot : i.modes[2]? = some m2 := by rcases hi with rfl | rfl | rfl | rfl <;> rfl
    obtain ⟨wa, v, npc, htarget, rfl⟩ := hc.of_slot2 hslot
    exact ⟨rfl, List.append_nil _, rfl, rfl, rfl,
      fun x hx => read_write_other s.mem v (hx wa (storeAddr_ok_iff.2 htarget)), .inl ⟨rfl, rfl⟩⟩

/-- R79: IN commits one store at slot 0's target and one input. -/
theorem Commits.of_inp {s t : State} {m0 : ModeField} (h : Commits s (.inp m0) t) :
    ∃ wa npc, Targets s 0 m0 wa ∧ t = commit (afterInput s)
      { store := some (wa, inputValue s), event := some (.inp (inputValue s)) } npc := by
  cases h with
  | store _ _ _ _ _ shape => obtain ⟨_, _, hi | hi | hi | hi⟩ := shape <;> cases hi
  | jump _ _ shape => obtain ⟨_, _, hi | hi⟩ := shape <;> cases hi
  | inp _ wa npc target => exact ⟨wa, npc, target, rfl⟩

/-- Settles O39: a halt changes the status only, and a commit of IN one address and the trace. -/
theorem inputFrame : Obligations.InputFrame := by
  intro m0 s t h
  rcases exec_halts_or_commits h with ht | hc
  · rw [ht]
    exact ⟨rfl, rfl, rfl, fun _ _ => rfl, .inr rfl⟩
  · obtain ⟨wa, npc, htarget, rfl⟩ := hc.of_inp
    have hmem : ∀ x, x ≠ wa →
        ((afterInput s).mem.write wa (inputValue s)).read x = s.mem.read x := fun x hx => by
      rw [read_write_other _ _ hx, afterInput_mem]
    exact ⟨afterInput_rb s, afterInput_display s, afterInput_params s,
      fun x hx => hmem x (hx wa (storeAddr_ok_iff.2 htarget)),
      .inl ⟨afterInput_runState s, afterInput_haltCause s, inputValue s, by simp⟩⟩

/-- R80: OUT commits one output, after the peripheral took it. -/
theorem Commits.of_out {s t : State} {m0 : ModeField} (h : Commits s (.out m0) t) :
    ∃ a npc, t = commit (emitOutput s a) { event := some (.out a) } npc := by
  cases h with
  | store _ _ _ _ _ shape => obtain ⟨_, _, hi | hi | hi | hi⟩ := shape <;> cases hi
  | jump _ _ shape => obtain ⟨_, _, hi | hi⟩ := shape <;> cases hi
  | out _ a npc => exact ⟨a, npc, rfl⟩

/-- Settles O40: a halt changes the status only, and a commit of OUT the trace and the display. -/
theorem outputFrame : Obligations.OutputFrame := by
  intro m0 s t h
  rcases exec_halts_or_commits h with ht | hc
  · rw [ht]
    exact ⟨fun _ => rfl, rfl, rfl, rfl, .inr rfl⟩
  · obtain ⟨a, npc, rfl⟩ := hc.of_out
    have hmem : (commit (emitOutput s a) { event := some (.out a) } npc).mem = s.mem :=
      emitOutput_mem s a
    exact ⟨fun x => by rw [hmem], emitOutput_rb s a, emitOutput_params s a, emitOutput_draws s a,
      .inl ⟨emitOutput_runState s a, emitOutput_haltCause s a, a, by simp⟩⟩

/-- R85, R86: a jump commits a new pc and nothing else. -/
theorem Commits.of_jump {s t : State} {i : Instr} (h : Commits s i t)
    (ho : i.opcode = .jt ∨ i.opcode = .jf) : t = { s with pc := t.pc } := by
  cases h with
  | store _ _ _ _ _ shape =>
    obtain ⟨_, _, rfl | rfl | rfl | rfl⟩ := shape <;> simp [Instr.opcode] at ho
  | inp | out | base => simp [Instr.opcode] at ho
  | jump => simp [commit, Update.applyStore]

/-- R92: ARB commits a new rb and a new pc and nothing else. -/
theorem Commits.of_arb {s t : State} {i : Instr} (h : Commits s i t) (ho : i.opcode = .arb) :
    t = { s with rb := t.rb, pc := t.pc } := by
  cases h with
  | store _ _ _ _ _ shape => obtain ⟨_, _, rfl | rfl | rfl | rfl⟩ := shape <;> cases ho
  | jump _ _ shape => obtain ⟨_, _, rfl | rfl⟩ := shape <;> cases ho
  | inp | out => cases ho
  | base => simp [commit, Update.applyStore]

theorem exec_of_opcode_hlt {i : Instr} (ho : i.opcode = .hlt) (s : State) :
    exec i s = .next (takeHalt s .halt) := by
  cases i with
  | hlt => rfl
  | _ => cases ho

/-- R61: no instruction of the register-only frame has a write slot. -/
theorem not_storing_of_registerOnly {o : Opcode} (h : o ∈ [Opcode.jt, .jf, .arb, .hlt]) :
    o ∉ [Opcode.add, .mul, .inp, .lt, .eq] := by
  revert h
  cases o <;> decide

/-- Settles O41, by the two commits that touch registers only and the halt of HLT. -/
theorem registerOnlyFrame : Obligations.RegisterOnlyFrame := by
  intro i s t h
  refine ⟨fun ho => ?_, fun ho => ?_, fun ho => ?_, fun ho x => ?_⟩
  · exact (exec_halts_or_commits h).symm.imp_left (Commits.of_jump · ho)
  · exact (exec_halts_or_commits h).symm.imp_left (Commits.of_arb · ho)
  · rw [exec_of_opcode_hlt ho] at h
    cases h
    rfl
  · obtain ⟨-, -, -, hstore⟩ := whoMayChangeWhat i s t h
    rw [not_imp_comm.1 hstore (not_storing_of_registerOnly ho)]

/-! ## Read values and mode policies -/

/-- Settles O43, by the address check of the operand's address. -/
theorem readValueOfEachMode : Obligations.ReadValueOfEachMode := by
  intro s raw
  refine ⟨rfl, fun h => ?_, fun h => ?_, fun h => ?_, fun h => ?_⟩
  · rw [readValue, addrcheck_ok h, ok_bind, pure_eq_ok]
  · rw [readValue, addrcheck_error h, error_bind]
  · rw [readValue, addrcheck_ok h, ok_bind, pure_eq_ok]
  · rw [readValue, addrcheck_error h, error_bind]

section
variable {s : State} {k d : Nat} {m0 m1 m2 : ModeField}

/-! ### An invalid mode digit -/

/-- R66: what the fault policy makes of an invalid mode digit. -/
theorem slotMode_invalid_fault (hp : s.params.invalidMode = .fault) :
    slotMode s k (.invalid d) = .error (.invalidMode s.word k) := by
  simp only [slotMode, hp]

theorem slotMode_mode (s : State) (k : Nat) (m : Mode) : slotMode s k (.mode m) = .ok m := rfl

/-- R66, R100: `k` is the lowest of the slots with mode fields `ms` whose digit is invalid. -/
structure FirstInvalid (ms : List ModeField) (k d : Nat) : Prop where
  invalid : ms[k]? = some (.invalid d)
  lower : ∀ j < k, ∃ m, ms[j]? = some (.mode m)

theorem storeAddr_invalidMode (hp : s.params.invalidMode = .fault) (h : FirstInvalid [m0] k d) :
    storeAddr s 0 m0 = .error (.invalidMode s.word k) := by
  obtain ⟨hk, -⟩ := h
  match k with
  | 0 => cases hk; rw [storeAddr, slotMode_invalid_fault hp, error_bind]

theorem operandR_invalidMode (hp : s.params.invalidMode = .fault) (h : FirstInvalid [m0] k d) :
    operandR s m0 = .error (.invalidMode s.word k) := by
  obtain ⟨hk, -⟩ := h
  match k with
  | 0 => cases hk; rw [operandR, slotMode_invalid_fault hp, error_bind]

theorem operandsRR_invalidMode (hp : s.params.invalidMode = .fault) (h : FirstInvalid [m0, m1] k d) :
    operandsRR s m0 m1 = .error (.invalidMode s.word k) := by
  obtain ⟨hk, hlow⟩ := h
  match k with
  | 0 => cases hk; rw [operandsRR, slotMode_invalid_fault hp, error_bind]
  | 1 =>
    obtain ⟨n0, ⟨⟩⟩ := hlow 0 (by decide)
    cases hk
    simp only [operandsRR, slotMode_mode, slotMode_invalid_fault hp, ok_bind, error_bind]

theorem operandsRRW_invalidMode (hp : s.params.invalidMode = .fault)
    (h : FirstInvalid [m0, m1, m2] k d) :
    operandsRRW s m0 m1 m2 = .error (.invalidMode s.word k) := by
  obtain ⟨hk, hlow⟩ := h
  match k with
  | 0 => cases hk; rw [operandsRRW, slotMode_invalid_fault hp, error_bind]
  | 1 =>
    obtain ⟨n0, ⟨⟩⟩ := hlow 0 (by decide)
    cases hk
    simp only [operandsRRW, slotMode_mode, slotMode_invalid_fault hp, ok_bind, error_bind]
  | 2 =>
    obtain ⟨n0, ⟨⟩⟩ := hlow 0 (by decide)
    obtain ⟨n1, ⟨⟩⟩ := hlow 1 (by decide)
    cases hk
    simp only [operandsRRW, slotMode_mode, slotMode_invalid_fault hp, ok_bind, error_bind]

/-- R66, R97, R100: an instruction halts with its lowest invalid slot, before any slot is read. -/
theorem exec_invalidMode {i : Instr} (hp : s.params.invalidMode = .fault)
    (h : FirstInvalid i.modes k d) : exec i s = .next (takeHalt s (.invalidMode s.word k)) := by
  cases i with
  | add | mul | lt | eq => exact finish_bind_error (operandsRRW_invalidMode hp h)
  | jt | jf => exact finish_bind_error (operandsRR_invalidMode hp h)
  | out | arb => exact finish_bind_error (operandR_invalidMode hp h)
  | inp => exact finish_bind_error (storeAddr_invalidMode hp h)
  | hlt => cases h.invalid

/-- R66: what the policy `as_position` makes of any mode field. -/
theorem slotMode_invalidAsPosition (hp : s.params.invalidMode = .asPosition) (k : Nat)
    (f : ModeField) : slotMode s k (invalidAsPosition f) = slotMode s k f := by
  cases f with
  | mode m => rfl
  | invalid d => simp only [slotMode, hp, invalidAsPosition]

theorem finish_bind_congr {α : Type} {x y : Except HaltCause α} {g : α → Except HaltCause State}
    (h : x = y) : finish s (x >>= g) = finish s (y >>= g) := by
  rw [h]

/-- R66: under `as_position` an instruction does what it does with position for each invalid mode. -/
theorem exec_mapModes_invalidAsPosition (hp : s.params.invalidMode = .asPosition) (i : Instr) :
    exec i s = exec (i.mapModes invalidAsPosition) s := by
  have hmode := slotMode_invalidAsPosition hp
  cases i with
  | add | mul | lt | eq => exact finish_bind_congr (by simp only [operandsRRW, hmode])
  | jt | jf => exact finish_bind_congr (by simp only [operandsRR, hmode])
  | out | arb => exact finish_bind_congr (by simp only [operandR, hmode])
  | inp => exact finish_bind_congr (by simp only [operandW, storeAddr, hmode])
  | hlt => rfl

/-! ### An immediate write -/

/-- R67: what the fault policy makes of a write slot in immediate mode. -/
theorem slotFails_immediateWrite {raw : Word} (hp : s.params.immWrite = .fault)
    (hraw : RawIs s k raw) :
    SlotFails s k (.mode .immediate) (.immediateWrite s.word k) .write :=
  .write (.inl rfl) (by simp only [writeSlot, rawOperand_ok_iff.2 hraw, ok_bind, writeAddr, hp])

/-- R67: what the policy `as_position` makes of a write slot in immediate mode. -/
theorem writeSlot_immediate_asPosition (hp : s.params.immWrite = .asPosition) (k : Nat) :
    writeSlot s k .immediate = writeSlot s k .position := by
  simp only [writeSlot, writeAddr, hp]

theorem operandsRRW_immediate_asPosition (hp : s.params.immWrite = .asPosition)
    (m0 m1 : ModeField) :
    operandsRRW s m0 m1 (.mode .immediate) = operandsRRW s m0 m1 (.mode .position) := by
  simp only [operandsRRW, slotMode_mode, ok_bind, writeSlot_immediate_asPosition hp]

theorem operandW_immediate_asPosition (hp : s.params.immWrite = .asPosition) :
    operandW s (.mode .immediate) = operandW s (.mode .position) := by
  simp only [operandW, storeAddr, slotMode_mode, ok_bind, writeSlot_immediate_asPosition hp]

end

/-- Settles O44: the modes are checked before any operand, lowest slot first. -/
theorem invalidModeIsReportedOrPosition : Obligations.InvalidModeIsReportedOrPosition :=
  ⟨fun _ _ _ _ hp hk hlow => exec_invalidMode hp ⟨hk, hlow⟩,
    fun i _ hp => exec_mapModes_invalidAsPosition hp i⟩

/-- Settles O45: the write slot fails after the readable ones, or resolves as in position mode. -/
theorem immediateWriteIsReportedOrPosition : Obligations.ImmediateWriteIsReportedOrPosition := by
  refine ⟨fun m0 m1 s a b raw i hi hp ha hb hraw => ?_, fun s raw hp hraw => ?_, fun m0 m1 s hp => ?_⟩
  · have hops : operandsRRW s m0 m1 (.mode .immediate) = .error (.immediateWrite s.word 2) :=
      operandsRRW_error_slot2 ha hb (slotFails_immediateWrite hp hraw) (.inl rfl)
    rcases hi with rfl | rfl | rfl | rfl <;> exact finish_bind_error hops
  · have hop : operandW s (.mode .immediate) = .error (.immediateWrite s.word 0) :=
      operandW_error (slotFails_immediateWrite hp hraw) (.inl rfl)
    exact finish_bind_error hop
  · have hops := operandsRRW_immediate_asPosition hp m0 m1
    exact ⟨finish_bind_congr hops, finish_bind_congr hops, finish_bind_congr hops,
      finish_bind_congr hops, finish_bind_congr (operandW_immediate_asPosition hp)⟩

/-! ## The advance past the top of memory -/

/-- R75, R100: an instruction whose operands resolve to `o` halts with what its later checks report. -/
theorem finish_bind_ok_error {α : Type} {s : State} {c : HaltCause} {x : Except HaltCause α} {o : α}
    {g : α → Except HaltCause State} (hx : x = .ok o) (hg : g o = .error c) :
    finish s (x >>= g) = .next (takeHalt s c) :=
  finish_error (bind_error_iff.2 (.inr ⟨o, hx, hg⟩))

/-- R75: the check of an advance past the top stops the commit that would follow it. -/
theorem nextPc_bind_error {s : State} {len : Nat} {g : Nat → Except HaltCause State}
    (h : addrMax < s.pc + len) : (nextPc s len >>= g) = .error (.addressFault (s.pc + len)) :=
  bind_error_iff.2 (.inl (nextPc_error h))

/-- R76, R100: the advance is checked after the arithmetic result. -/
theorem arithResult_nextPc_bind_error {s : State} {v : Int} {r : Word} {len : Nat}
    {g : Word → Nat → Except HaltCause State} (hr : ResultIs s v r) (h : addrMax < s.pc + len) :
    (arithResult s v >>= fun r => nextPc s len >>= g r) = .error (.addressFault (s.pc + len)) :=
  bind_error_iff.2 (.inr ⟨r, arithResult_ok_iff.2 hr, nextPc_bind_error h⟩)

/-- Settles O49: with operands and result in order, the next pc is the first check to fail. -/
theorem advancePastTheTopFaults : Obligations.AdvancePastTheTopFaults := by
  refine ⟨fun m0 m1 m2 s a b r wa htop ha hb hw => ?_, fun m0 s a r wa htop => ?_⟩
  · have hops : operandsRRW s m0 m1 m2 = .ok { a := a, b := b, wa := wa } :=
      operandsRRW_ok_iff.2 ⟨ha, hb, hw⟩
    exact ⟨fun hr => finish_bind_ok_error hops (arithResult_nextPc_bind_error hr htop),
      fun hr => finish_bind_ok_error hops (arithResult_nextPc_bind_error hr htop),
      finish_bind_ok_error hops (nextPc_bind_error htop),
      finish_bind_ok_error hops (nextPc_bind_error htop)⟩
  · exact ⟨fun hw => finish_bind_ok_error (operandW_ok_iff.2 hw) (nextPc_bind_error htop),
      fun ha => finish_bind_ok_error (operandR_ok_iff.2 ha) (nextPc_bind_error htop),
      fun ha hr =>
        finish_bind_ok_error (operandR_ok_iff.2 ha) (arithResult_nextPc_bind_error hr htop)⟩

end Sys2Proof.Machine
end

section
/-! PROOFS. The statements of 40_arithmetic.md: the arithmetic result (R76), ADD and MUL (R77, R78), and the
overflow halt of ADD, MUL and ARB (R92, R100). -/

namespace Sys2Proof.Machine

/-! ## ADD and MUL complete -/

/-- R75: the next state of a commit of one store. -/
theorem commit_store (s : State) (wa : Nat) (r : Word) (npc : Nat) :
    commit s { store := some (wa, r) } npc = { s with mem := s.mem.write wa r, pc := npc } := by
  simp [commit]

/-- Settles O25, by the commit of ADD. -/
theorem addStoresSum : Obligations.AddStoresSum := by
  intro m0 m1 m2 s a b r wa ha hb hw hres hp
  rw [exec_add_commits ha hb hw hres hp, commit_store]

/-- R75, R78: MUL with both operands, a target, a result and a next pc commits one store. -/
theorem exec_mul_commits {m0 m1 m2 : ModeField} {s : State} {a b r : Word} {wa : Nat}
    (ha : Reads s 0 m0 a) (hb : Reads s 1 m1 b) (hw : Targets s 2 m2 wa)
    (hres : ResultIs s (a.toInt * b.toInt) r) (hp : s.pc + 4 ≤ addrMax) :
    exec (.mul m0 m1 m2) s = .next (commit s { store := some (wa, r) } (s.pc + 4)) :=
  finish_ok <| bind_ok_iff.2 ⟨{ a := a, b := b, wa := wa }, operandsRRW_ok_iff.2 ⟨ha, hb, hw⟩,
    bind_ok_iff.2 ⟨r, arithResult_ok_iff.2 hres,
      bind_ok_iff.2 ⟨s.pc + 4, nextPc_ok_iff.2 ⟨rfl, hp⟩, rfl⟩⟩⟩

/-- Settles O26, by the commit of MUL. -/
theorem mulStoresProduct : Obligations.MulStoresProduct := by
  intro m0 m1 m2 s a b r wa ha hb hw hres hp
  rw [exec_mul_commits ha hb hw hres hp, commit_store]

/-! ## Results outside the Word range -/

/-- R76, R114: an instruction that records an overflow, where no cause stood before, does arithmetic. -/
theorem opcode_of_overflow {i : Instr} {s t : State} {w : Word} (h : exec i s = .next t)
    (hs : s.haltCause = .none) (ht : t.haltCause = .overflow w) :
    i.opcode = .add ∨ i.opcode = .mul ∨ i.opcode = .arb := by
  rcases exec_cases h with ⟨c, hcause, rfl⟩ | hcommit
  · rw [takeHalt_haltCause] at ht
    subst ht
    rcases hcause with hcheck | ⟨-, -, hop⟩ | ⟨hhalt, -⟩
    · exact hcheck.elim
    · exact hop
    · cases hhalt
  · obtain ⟨-, hkept, -⟩ := hcommit.status
    rw [hkept, hs] at ht
    cases ht

/-- Settles O36: the three answers of `arithResult`, and the causes an instruction may halt with. -/
theorem arithResultIsExactOrSettledByPolicy : Obligations.ArithResultIsExactOrSettledByPolicy :=
  ⟨fun _ v => ⟨fun hv => ⟨wordOf v, wordOf_toInt hv, arithResult_ok hv⟩, arithResult_fault,
    arithResult_wrap⟩, fun _ _ _ _ => opcode_of_overflow⟩

/-- R76, R100: under the fault policy an overflow stops whatever would follow it. -/
theorem arithResult_bind_overflow {s : State} {v : Int} {g : Word → Except HaltCause State}
    (hp : s.params.overflow = .fault) (hv : ¬ inWord v) :
    (arithResult s v >>= g) = .error (.overflow s.word) :=
  bind_error_iff.2 (.inl (arithResult_fault hv hp))

/-- Settles O48: with the operands in order, the arithmetic result is the first check to fail. -/
theorem overflowFaults : Obligations.OverflowFaults := by
  intro m0 m1 m2 s a b wa hp ha
  have hops (hb : Reads s 1 m1 b) (hw : Targets s 2 m2 wa) :
      operandsRRW s m0 m1 m2 = .ok { a := a, b := b, wa := wa } :=
    operandsRRW_ok_iff.2 ⟨ha, hb, hw⟩
  exact ⟨fun hb hw hv => finish_bind_ok_error (hops hb hw) (arithResult_bind_overflow hp hv),
    fun hb hw hv => finish_bind_ok_error (hops hb hw) (arithResult_bind_overflow hp hv),
    fun hv => finish_bind_ok_error (operandR_ok_iff.2 ha) (arithResult_bind_overflow hp hv)⟩

end Sys2Proof.Machine
end

section
/-! PROOFS. The statements of 41_io.md: IN and OUT under either peripheral (R79, R80), and the histories that
every step keeps (R83, R84). -/

namespace Sys2Proof.Machine

/-! ## What a step does at the peripheral port -/

/-- R29, R79, R80: one step from `s` to `t` as the peripheral and the trace see it: nothing passes, one input
is answered and recorded, or one output is sent and recorded. -/
inductive PortMove (s t : State) : Prop where
  | idle (trace : t.trace = s.trace) (display : t.display = s.display) (draws : t.draws = s.draws)
  | input (trace : t.trace = s.trace ++ [.inp (inputValue s)]) (display : t.display = s.display)
      (draws : t.draws = (afterInput s).draws)
  | output (a : Word) (trace : t.trace = s.trace ++ [.out a])
      (display : t.display = (emitOutput s a).display) (draws : t.draws = s.draws)

/-- R75: a commit passes an input exactly for IN and an output exactly for OUT. -/
theorem Commits.portMove {s t : State} {i : Instr} (h : Commits s i t) : PortMove s t := by
  cases h with
  | store => exact .idle (List.append_nil _) rfl rfl
  | inp => exact .input (by simp) (afterInput_display s) rfl
  | out _ a => exact .output a (by simp) rfl (emitOutput_draws s a)
  | jump => exact .idle (List.append_nil _) rfl rfl
  | base => exact .idle (List.append_nil _) rfl rfl

/-- R74, R83: a step passes at most one value; the start of the run and a halt pass none. -/
theorem step_portMove {s t : State} (h : step s = .next t) : PortMove s t := by
  rcases step_cases h with ⟨-, rfl⟩ | ⟨-, c, -, rfl⟩ | ⟨-, i, -, hi⟩ | ⟨-, rfl⟩
  · exact .idle (start_trace s) (start_display s) (start_draws s)
  · exact .idle (takeHalt_trace s c) (takeHalt_display s c) (takeHalt_draws s c)
  · exact hi.portMove
  · exact .idle rfl rfl rfl

/-! ## The histories -/

/-- Settles O16: the display moves exactly as the replay of the event the step records. -/
theorem stepKeepsArcadeHistory : Obligations.StepKeepsArcadeHistory := by
  intro s t hs h hp
  obtain ⟨hparams, -⟩ := stepKeepsParamsAndAppendsTrace s t h
  rw [hparams] at hp ⊢
  have hreplay := hs hp
  cases step_portMove h with
  | idle htrace hdisplay => rw [htrace, hdisplay, hreplay]
  | input htrace hdisplay =>
    rw [htrace, hdisplay, replay_append, hreplay, inputValue_arcade hp]
    exact if_pos rfl
  | output a htrace hdisplay =>
    rw [htrace, hdisplay, replay_append, hreplay, emitOutput_display_arcade hp]
    rfl

/-- Settles O17: only an input draws, and it records the draw at the counter. -/
theorem stepKeepsGenericHistory : Obligations.StepKeepsGenericHistory := by
  intro s t hs h hp
  obtain ⟨hparams, -⟩ := stepKeepsParamsAndAppendsTrace s t h
  rw [hparams] at hp
  have hinputs := hs hp
  cases step_portMove h with
  | idle htrace _ hdraws => rw [htrace, hdraws, hinputs]
  | input htrace _ hdraws =>
    rw [htrace, hdraws, inputsOf_append, hinputs, inputValue_generic hp, afterInput_draws_generic hp,
      List.range_succ, List.map_append]
    rfl
  | output a htrace _ hdraws =>
    rw [htrace, hdraws, inputsOf_append, hinputs]
    exact List.append_nil _

/-! ## IN and OUT complete -/

/-- R84: a generic input counts its draw and changes nothing else. -/
theorem afterInput_generic {s : State} (h : s.params.peripheral = .generic) :
    afterInput s = { s with draws := s.draws + 1 } := by
  simp only [afterInput, h]

/-- R82: an output to the Arcade Display changes the display alone. -/
theorem emitOutput_arcade {s : State} (h : s.params.peripheral = .arcade) (a : Word) :
    emitOutput s a = { s with display := s.display.emitOutput s.params a } := by
  simp only [emitOutput, h]

/-- R75, R79: IN with a target and a next pc commits the peripheral's answer. -/
theorem exec_inp_commits {m0 : ModeField} {s : State} {wa : Nat} (hw : Targets s 0 m0 wa)
    (hp : s.pc + 2 ≤ addrMax) :
    exec (.inp m0) s = .next (commit (afterInput s)
      { store := some (wa, inputValue s), event := some (.inp (inputValue s)) } (s.pc + 2)) :=
  finish_ok <| bind_ok_iff.2 ⟨wa, operandW_ok_iff.2 hw,
    bind_ok_iff.2 ⟨s.pc + 2, nextPc_ok_iff.2 ⟨rfl, hp⟩, rfl⟩⟩

/-- R75, R80: OUT with an operand and a next pc commits the output. -/
theorem exec_out_commits {m0 : ModeField} {s : State} {a : Word} (ha : Reads s 0 m0 a)
    (hp : s.pc + 2 ≤ addrMax) :
    exec (.out m0) s = .next (commit (emitOutput s a) { event := some (.out a) } (s.pc + 2)) :=
  finish_ok <| bind_ok_iff.2 ⟨a, operandR_ok_iff.2 ha,
    bind_ok_iff.2 ⟨s.pc + 2, nextPc_ok_iff.2 ⟨rfl, hp⟩, rfl⟩⟩

/-- R127: the control law answers the sign of the exact difference of the two x components. -/
theorem requestInput_toInt (d : Display) :
    d.requestInput.toInt = (d.ball.1.toInt - d.paddle.1.toInt).sign := by
  unfold Display.requestInput
  split_ifs with hright hleft
  · rw [Int.sign_eq_one_of_pos (by omega)]; rfl
  · rw [Int.sign_eq_neg_one_of_neg (by omega)]; rfl
  · rw [show d.ball.1.toInt - d.paddle.1.toInt = 0 by omega]; rfl

/-- Settles O29: the value of that sign is the control law's answer, which IN commits. -/
theorem inStoresControlLaw : Obligations.InStoresControlLaw := by
  intro m0 s v wa hperiph hw hp hv
  obtain rfl : v = s.display.requestInput :=
    BitVec.eq_of_toInt_eq (hv.trans (requestInput_toInt s.display).symm)
  rw [exec_inp_commits hw hp, inputValue_arcade hperiph, afterInput_arcade hperiph]
  rfl

/-- Settles O30, by the commit of IN with the next draw as its answer. -/
theorem inStoresFreshDraw : Obligations.InStoresFreshDraw := by
  intro m0 s wa hperiph hw hp
  rw [exec_inp_commits hw hp, inputValue_generic hperiph, afterInput_generic hperiph]
  rfl

/-- Settles O31, by the commit of OUT under each peripheral. -/
theorem outSendsItsOperand : Obligations.OutSendsItsOperand := by
  intro m0 s a ha hp
  rw [exec_out_commits ha hp]
  refine ⟨fun hperiph => ?_, fun hperiph => ?_⟩
  · rw [emitOutput_arcade hperiph]
    rfl
  · rw [emitOutput_generic hperiph]
    rfl

end Sys2Proof.Machine
end

section
/-! PROOFS. The statements of 42_control.md: JT and JF taken and not taken (R85, R86), and the faults of their
targets and advances (R87). -/

namespace Sys2Proof.Machine

/-! ## What JT and JF do once their operands are read -/

/-- R85, R86: the outcome of a jump whose operands are read, to the target `b` if taken. -/
def jump (s : State) (taken : Bool) (b : Word) : Host.Outcome State Fault Refusal :=
  finish s do
    let npc ← jumpPc s taken b
    return { s with pc := npc }

/-- R75: the next state of a commit of no update. -/
theorem commit_empty (s : State) (npc : Nat) : commit s {} npc = { s with pc := npc } := by
  simp [commit]

theorem toInt_eq_zero_iff {a : Word} : a.toInt = 0 ↔ a = 0 := by
  rw [← BitVec.toInt_inj, BitVec.ofNat_eq_ofNat, BitVec.toInt_zero]

section
variable {m0 m1 : ModeField} {s : State} {a b : Word}

/-- R85: with both operands read, JT is a jump taken exactly when the first is not 0. -/
theorem exec_jt_eq_jump (ha : Reads s 0 m0 a) (hb : Reads s 1 m1 b) :
    exec (.jt m0 m1) s = jump s (decide (a.toInt ≠ 0)) b := by
  have hops : operandsRR s m0 m1 = .ok (a, b) := operandsRR_ok_iff.2 ⟨ha, hb⟩
  simp only [exec, execJt, hops, ok_bind, jump, ne_eq, toInt_eq_zero_iff, commit_empty]

/-- R86: with both operands read, JF is a jump taken exactly when the first is 0. -/
theorem exec_jf_eq_jump (ha : Reads s 0 m0 a) (hb : Reads s 1 m1 b) :
    exec (.jf m0 m1) s = jump s (decide (a.toInt = 0)) b := by
  have hops : operandsRR s m0 m1 = .ok (a, b) := operandsRR_ok_iff.2 ⟨ha, hb⟩
  simp only [exec, execJf, hops, ok_bind, jump, toInt_eq_zero_iff, commit_empty]

end

/-! ## The four outcomes of a jump -/

section
variable {s : State} {b : Word}

theorem jump_taken (h : 0 ≤ b.toInt) : jump s true b = .next { s with pc := b.toInt.toNat } := by
  have hlt := BitVec.toInt_lt (x := b)
  have htarget : jumpTarget b = .ok b.toInt.toNat :=
    addrcheck_ok ⟨h, by simp only [addrMax]; omega⟩
  exact finish_ok (by rw [jumpPc_taken, htarget, ok_bind, pure_eq_ok])

theorem jump_taken_negative (h : b.toInt < 0) :
    jump s true b = .next (takeHalt s (.addressFault b.toInt)) := by
  have htarget : jumpTarget b = .error (.addressFault b.toInt) :=
    addrcheck_error fun hin => absurd hin.1 (not_le.2 h)
  exact finish_bind_error (by rw [jumpPc_taken, htarget])

theorem jump_not_taken (h : s.pc + 3 ≤ addrMax) :
    jump s false b = .next { s with pc := s.pc + 3 } :=
  finish_ok (by rw [jumpPc_not_taken, nextPc_ok_iff.2 ⟨rfl, h⟩, ok_bind, pure_eq_ok])

theorem jump_not_taken_past_top (h : addrMax < s.pc + 3) :
    jump s false b = .next (takeHalt s (.addressFault (s.pc + 3))) :=
  finish_bind_error (by rw [jumpPc_not_taken]; exact nextPc_error h)

end

/-- Settles O32: a jump taken to an address, and one not taken that can advance. -/
theorem jtJumpsIfNonzero : Obligations.JtJumpsIfNonzero := by
  intro m0 m1 s a b ha hb
  rw [exec_jt_eq_jump ha hb]
  refine ⟨fun hne htarget => ?_, fun heq hadv => ?_⟩
  · rw [decide_eq_true hne, jump_taken htarget]
  · rw [decide_eq_false (not_not.2 heq), jump_not_taken hadv]

/-- Settles O33: a jump taken to an address, and one not taken that can advance. -/
theorem jfJumpsIfZero : Obligations.JfJumpsIfZero := by
  intro m0 m1 s a b ha hb
  rw [exec_jf_eq_jump ha hb]
  refine ⟨fun heq htarget => ?_, fun hne hadv => ?_⟩
  · rw [decide_eq_true heq, jump_taken htarget]
  · rw [decide_eq_false hne, jump_not_taken hadv]

/-- Settles O50: only a taken jump checks its target, and only one not taken its advance. -/
theorem jumpFaults : Obligations.JumpFaults := by
  intro m0 m1 s a b ha hb
  obtain ⟨-, hjt⟩ := jtJumpsIfNonzero m0 m1 s a b ha hb
  obtain ⟨-, hjf⟩ := jfJumpsIfZero m0 m1 s a b ha hb
  refine ⟨fun hne hneg => ?_, fun heq hneg => ?_, fun heq htop => ?_, fun hne htop => ?_, hjt, hjf⟩
  · rw [exec_jt_eq_jump ha hb, decide_eq_true hne, jump_taken_negative hneg]
  · rw [exec_jf_eq_jump ha hb, decide_eq_true heq, jump_taken_negative hneg]
  · rw [exec_jt_eq_jump ha hb, decide_eq_false (not_not.2 heq), jump_not_taken_past_top htop]
  · rw [exec_jf_eq_jump ha hb, decide_eq_false hne, jump_not_taken_past_top htop]

end Sys2Proof.Machine
end

section
/-! PROOFS. The statements of 43_compare.md: LT and EQ (R89 to R91). -/

namespace Sys2Proof.Machine

@[simp] theorem truth_true : truth true = 1 := rfl

@[simp] theorem truth_false : truth false = 0 := rfl

/-! ## What LT and EQ share: the truth of a test of both operands is stored -/

/-- R89, R90: the outcome of a comparison by the test `p`, which LT and EQ differ in alone. -/
def comparison (s : State) (m0 m1 m2 : ModeField) (p : Word → Word → Bool) :
    Host.Outcome State Fault Refusal :=
  finish s do
    let o ← operandsRRW s m0 m1 m2
    let npc ← nextPc s 4
    return commit s { store := some (o.wa, truth (p o.a o.b)) } npc

section
variable {m0 m1 m2 : ModeField} {s : State} {a b : Word} {wa : Nat}

theorem exec_lt_eq_comparison :
    exec (.lt m0 m1 m2) s = comparison s m0 m1 m2 fun a b => decide (a.toInt < b.toInt) := rfl

theorem exec_eq_eq_comparison :
    exec (.eq m0 m1 m2) s = comparison s m0 m1 m2 fun a b => decide (a = b) := rfl

/-- R75: with both operands, a target and a next pc, a comparison stores the truth of its test. -/
theorem comparison_commits (p : Word → Word → Bool) (ha : Reads s 0 m0 a) (hb : Reads s 1 m1 b)
    (hw : Targets s 2 m2 wa) (hp : s.pc + 4 ≤ addrMax) :
    comparison s m0 m1 m2 p =
      .next { s with mem := s.mem.write wa (truth (p a b)), pc := s.pc + 4 } := by
  rw [← commit_store]
  exact finish_ok <| bind_ok_iff.2 ⟨{ a := a, b := b, wa := wa }, operandsRRW_ok_iff.2 ⟨ha, hb, hw⟩,
    bind_ok_iff.2 ⟨s.pc + 4, nextPc_ok_iff.2 ⟨rfl, hp⟩, rfl⟩⟩

end

/-! ## LT and EQ complete -/

/-- Settles O27: the test of LT is true below `b` and false from `b` up. -/
theorem ltStoresSignedOrder : Obligations.LtStoresSignedOrder := by
  intro m0 m1 m2 s a b r wa ha hb hw hp hr
  rw [exec_lt_eq_comparison, comparison_commits _ ha hb hw hp]
  rcases hr with ⟨hlt, rfl⟩ | ⟨hge, rfl⟩
  · rw [decide_eq_true hlt, truth_true]
  · rw [decide_eq_false (not_lt.2 hge), truth_false]

/-- Settles O28: two Words are equal exactly when their signed values are. -/
theorem eqStoresEquality : Obligations.EqStoresEquality := by
  intro m0 m1 m2 s a b r wa ha hb hw hp hr
  rw [exec_eq_eq_comparison, comparison_commits _ ha hb hw hp]
  rcases hr with ⟨heq, rfl⟩ | ⟨hne, rfl⟩
  · rw [decide_eq_true (BitVec.toInt_inj.1 heq), truth_true]
  · rw [decide_eq_false (mt BitVec.toInt_inj.2 hne), truth_false]

end Sys2Proof.Machine
end

section
/-! PROOFS. The statement of 44_base.md: ARB (R92). -/

namespace Sys2Proof.Machine

/-- R75: the next state of a commit of one `rb` write. -/
theorem commit_base (s : State) (r : Word) (npc : Nat) :
    commit s { base := some r } npc = { s with rb := r, pc := npc } := by
  simp [commit]

/-- R75, R92: ARB with an operand, a result and a next pc commits one `rb` write. -/
theorem exec_arb_commits {m0 : ModeField} {s : State} {a r : Word} (ha : Reads s 0 m0 a)
    (hres : ResultIs s (s.rb.toInt + a.toInt) r) (hp : s.pc + 2 ≤ addrMax) :
    exec (.arb m0) s = .next (commit s { base := some r } (s.pc + 2)) :=
  finish_ok <| bind_ok_iff.2 ⟨a, operandR_ok_iff.2 ha,
    bind_ok_iff.2 ⟨r, arithResult_ok_iff.2 hres,
      bind_ok_iff.2 ⟨s.pc + 2, nextPc_ok_iff.2 ⟨rfl, hp⟩, rfl⟩⟩⟩

/-- Settles O34, by the commit of ARB. -/
theorem arbAdjustsBase : Obligations.ArbAdjustsBase := by
  intro m0 s a r ha hres hp
  rw [exec_arb_commits ha hres hp, commit_base]

end Sys2Proof.Machine
end

section
/-! PROOFS. The statement of 45_halt.md: HLT (R94). -/

namespace Sys2Proof.Machine

/-- R59, R94: every non-negative word with opcode 99 is HLT; its mode digits build nothing (R65). -/
theorem decode_hlt_of_opcode {w : Word} (hpos : 0 ≤ w.toInt) (hop : w.toNat % 100 = 99) :
    decode w = .ok .hlt :=
  decode_eq_ok_iff.2 ⟨hpos, .hlt, hop, rfl⟩

/-- R74, R94: in Running, a word that decodes as HLT halts with `Halt`. -/
theorem step_hlt {s : State} (hr : s.runState = .running) (hp : s.pc ≤ addrMax)
    (hd : decode (s.mem.read s.pc) = .ok .hlt) : step s = .next (takeHalt s .halt) := by
  rw [step_eq_exec hr hp hd, exec_of_opcode_hlt rfl]

/-- Settles O35, by the one halt of HLT and the decoder's answer on opcode 99. -/
theorem hltHalts : Obligations.HltHalts :=
  ⟨rfl, rfl, exec_of_opcode_hlt rfl, fun _ => decode_hlt_of_opcode,
    fun _ hr hp hpos hop => step_hlt hr hp (decode_hlt_of_opcode hpos hop)⟩

end Sys2Proof.Machine
end

section
/-! PROOFS. The statements of 60_exceptions.md: the Arcade Display's phases, triples and bounds (R120 to
R123), its control law (R126), the halts, by what they leave unchanged (R97) and by the causes the policies
allow (R114), that execute() returns their causes (R99, R144), and that the engine does not depend on the
display (R117, R131). -/

namespace Sys2Proof.Machine

/-! ## The three phases of the display -/

section
variable {p : Params} {d : Display}

theorem Display.emitOutput_expectX (h : d.phase = .expectX) (v : Word) :
    d.emitOutput p v =
      { d with pendX := v, maxX := raiseBound d.maxX v, phase := .expectY } := by
  simp only [Display.emitOutput, h]

theorem Display.emitOutput_expectY (h : d.phase = .expectY) (v : Word) :
    d.emitOutput p v =
      { d with pendY := v, maxY := raiseBound d.maxY v, phase := .expectTile } := by
  simp only [Display.emitOutput, h]

/-- R120: the third value of a sentinel triple is the score. -/
theorem Display.emitOutput_score (h : d.phase = .expectTile) (hx : d.pendX.toInt = -1) (v : Word) :
    d.emitOutput p v = { d with score := v, phase := .expectX } := by
  simp only [Display.emitOutput, h, Display.finishTriple, if_pos hx]

/-- R119: the third value of any other triple is a tile. -/
theorem Display.emitOutput_tile (h : d.phase = .expectTile) (hx : d.pendX.toInt ≠ -1) (v : Word) :
    d.emitOutput p v = { d.place p v with phase := .expectX } := by
  simp only [Display.emitOutput, h, Display.finishTriple, if_neg hx]

end

/-- Settles O54, by the equation of each phase. -/
theorem emitOutputPhases : Obligations.EmitOutputPhases :=
  fun _ _ v => ⟨fun h => Display.emitOutput_expectX h v, fun h => Display.emitOutput_expectY h v,
    fun h hx => Display.emitOutput_score h hx v, fun h hx => Display.emitOutput_tile h hx v⟩

/-- Settles O55: the three phases in turn, the last with the pending X still -1. -/
theorem sentinelTripleOnlyScores : Obligations.SentinelTripleOnlyScores := by
  intro p d x y v h hx
  rw [Display.emitOutput_expectX h x, Display.emitOutput_expectY rfl y,
    Display.emitOutput_score rfl hx v]
  simp only [raiseBound, hx, h]

/-! ## Bounds and phases over many outputs -/

/-- R123: one output lowers neither bound. -/
theorem Display.emitOutput_bounds (p : Params) (d : Display) (v : Word) :
    d.maxX.toInt ≤ (d.emitOutput p v).maxX.toInt ∧ d.maxY.toInt ≤ (d.emitOutput p v).maxY.toInt := by
  cases h : d.phase with
  | expectX =>
    rw [Display.emitOutput_expectX h]
    exact ⟨le_raiseBound d.maxX v, le_rfl⟩
  | expectY =>
    rw [Display.emitOutput_expectY h]
    exact ⟨le_rfl, le_raiseBound d.maxY v⟩
  | expectTile =>
    by_cases hx : d.pendX.toInt = -1
    · rw [Display.emitOutput_score h hx]
      exact ⟨le_rfl, le_rfl⟩
    · rw [Display.emitOutput_tile h hx]
      exact ⟨le_rfl, le_rfl⟩

/-- Settles O21: the display moves only by an output, and under the Arcade Display only. -/
theorem boundsNeverFall : Obligations.BoundsNeverFall := by
  intro s t h
  cases step_portMove h with
  | idle _ hdisplay => rw [hdisplay]; exact ⟨le_rfl, le_rfl⟩
  | input _ hdisplay => rw [hdisplay]; exact ⟨le_rfl, le_rfl⟩
  | output a _ hdisplay =>
    rw [hdisplay]
    cases hp : s.params.peripheral with
    | arcade =>
      rw [emitOutput_display_arcade hp]
      exact Display.emitOutput_bounds s.params s.display a
    | generic => rw [emitOutput_generic hp]; exact ⟨le_rfl, le_rfl⟩

/-- R121: the phase that follows. -/
def Phase.next : Phase → Phase
  | .expectX => .expectY
  | .expectY => .expectTile
  | .expectTile => .expectX

theorem Display.emitOutput_phase (p : Params) (d : Display) (v : Word) :
    (d.emitOutput p v).phase = d.phase.next := by
  cases h : d.phase with
  | expectX => rw [Display.emitOutput_expectX h]; rfl
  | expectY => rw [Display.emitOutput_expectY h]; rfl
  | expectTile => simp only [Display.emitOutput, h]; rfl

theorem phaseAfter_succ (n : Nat) : phaseAfter (n + 1) = (phaseAfter n).next := by
  have hn : n % 3 = 0 ∨ n % 3 = 1 ∨ n % 3 = 2 := by omega
  rcases hn with h | h | h <;> simp [phaseAfter, Phase.next, Nat.add_mod, h]

/-- R122: from any display whose phase counts `n` outputs, a trace's outputs count on. -/
theorem replay_phase {p : Params} {es : List Event} {d e : Display} {n : Nat}
    (hd : d.phase = phaseAfter n) (h : replay p d es = some e) :
    e.phase = phaseAfter (n + (outputsOf es).length) := by
  induction es generalizing d n with
  | nil => cases h; exact hd
  | cons ev es ih =>
    cases ev with
    | inp v =>
      simp only [replay, Option.ite_none_right_eq_some] at h
      exact ih hd h.2
    | out v =>
      have hnext : (d.emitOutput p v).phase = phaseAfter (n + 1) := by
        rw [Display.emitOutput_phase, hd, phaseAfter_succ]
      rw [ih hnext h, outputsOf, List.length_cons, Nat.add_right_comm, Nat.add_assoc]

/-- Settles O19: the reset display's phase counts no output. -/
theorem phaseCountsOutputs : Obligations.PhaseCountsOutputs := by
  intro p es d h
  have hreset : (Display.reset p).phase = phaseAfter 0 := rfl
  simpa only [Nat.zero_add] using replay_phase hreset h

/-! ## The control law -/

/-- Settles O57: the three signs of ball minus paddle, and the frame of IN. -/
theorem controlLawTracksTheBall : Obligations.ControlLawTracksTheBall := by
  refine ⟨fun d => ⟨fun h => if_pos h, fun h => ?_, fun h => ?_⟩, fun m s t h => ?_⟩
  · rw [Display.requestInput, if_neg (not_lt.2 h.le), if_pos h]
  · rw [Display.requestInput, if_neg h.not_lt, if_neg h.not_gt]
  · obtain ⟨-, hdisplay, -⟩ := inputFrame m s t h
    exact hdisplay

/-! ## What a halt leaves unchanged, and the causes the policies allow -/

/-- R114: the policy setting without which the cause does not arise. -/
def CauseAllowed (p : Params) : HaltCause → Prop
  | .invalidMode _ _ => p.invalidMode = .fault
  | .immediateWrite _ _ => p.immWrite = .fault
  | .overflow _ => p.overflow = .fault
  | _ => True

theorem CheckCause.allowed {s : State} {c : HaltCause} (h : CheckCause s c) :
    CauseAllowed s.params c := by
  cases c with
  | invalidMode | immediateWrite => exact h.2
  | overflow => exact h.elim
  | none | halt | unrecognized | addressFault => trivial

theorem ExecCause.allowed {s : State} {i : Instr} {c : HaltCause} (h : ExecCause s i c) :
    CauseAllowed s.params c := by
  rcases h with hcheck | ⟨rfl, hoverflow, -⟩ | ⟨rfl, -⟩
  · exact hcheck.allowed
  · exact hoverflow
  · trivial

/-- R97, R114: a step from Running to Halted is a halt with a cause that the policies allow. -/
theorem step_halts {s t : State} (hr : s.runState = .running) (h : step s = .next t)
    (ht : t.runState = .halted) :
    ∃ c, c ≠ .none ∧ CauseAllowed s.params c ∧ t = takeHalt s c := by
  simp only [step, hr, cycle] at h
  cases hf : fetch s with
  | error c =>
    rw [hf] at h
    cases h
    rcases fetch_error hf with ⟨rfl, -⟩ | ⟨rfl, -⟩
    · exact ⟨.unrecognized s.word, nofun, trivial, rfl⟩
    · exact ⟨.addressFault s.pc, nofun, trivial, rfl⟩
  | ok i =>
    rw [hf] at h
    rcases exec_cases h with ⟨c, hc, rfl⟩ | hc
    · exact ⟨c, hc.ne_none, hc.allowed, rfl⟩
    · obtain ⟨hrun, -⟩ := hc.status
      rw [hrun, hr] at ht
      cases ht

/-- Settles O11: the halt is `takeHalt`, whatever its cause. -/
theorem haltingInstructionHasNoOtherEffect : Obligations.HaltingInstructionHasNoOtherEffect := by
  intro s t hr h ht
  obtain ⟨c, hc, -, rfl⟩ := step_halts hr h ht
  exact ⟨hc, rfl⟩

/-- A machine in Running under the parameters `p`, whose memory holds the Word `w` at pc and no other. -/
def runningAt (p : Params) (pc : Nat) (w : Word) : State :=
  { State.resetWith p with mem := Memory.write [] pc w, pc := pc, runState := .running }

theorem runningAt_word (p : Params) (pc : Nat) (w : Word) :
    (runningAt p pc w).mem.read (runningAt p pc w).pc = w := read_write_same [] pc w

theorem step_runningAt_hlt (p : Params) :
    step (runningAt p 0 99) = .next (takeHalt (runningAt p 0 99) .halt) := by
  have hdecode : decode 99 = .ok .hlt := by decide
  exact step_hlt rfl (Nat.zero_le _) (by rw [runningAt_word, hdecode])

theorem step_runningAt_unrecognized (p : Params) :
    step (runningAt p 0 0) = .next (takeHalt (runningAt p 0 0) (.unrecognized 0)) := by
  have hdecode : decode 0 = .error (.unrecognisedOpcode 0) := by decide
  exact step_rejected rfl (Nat.zero_le _) (runningAt_word p 0 0) hdecode

/-- OUT at ADDR_MAX has its slot past the top of memory. -/
theorem step_runningAt_top (p : Params) :
    step (runningAt p addrMax 104) =
      .next (takeHalt (runningAt p addrMax 104) (.addressFault (addrMax + 1 + 0))) := by
  have hdecode : decode 104 = .ok (.out (.mode .immediate)) := by decide
  have hstand : ModesStand (runningAt p addrMax 104) (.out (.mode .immediate)) := by
    simp [ModesStand, Instr.modes, ModeIs]
  rw [step_eq_exec rfl le_rfl (by rw [runningAt_word, hdecode])]
  exact slotPastTheTopFaults _ _ 0 hstand (by decide) (fun j _ hj => absurd hj (Nat.not_lt_zero j))
    (Nat.lt_succ_self addrMax)

/-- Settles O24: a halt's cause is one the policies allow; a machine with one Word gives each of the three
causes that no policy touches. -/
theorem policiesDecideCauses : Obligations.PoliciesDecideCauses := by
  refine ⟨fun s t hr h ht => ?_, fun p => ⟨?_, ?_, ?_⟩⟩
  · obtain ⟨c, -, hallowed, rfl⟩ := step_halts hr h ht
    have hcause {c' : HaltCause} (hc : (takeHalt s c).haltCause = c') : CauseAllowed s.params c' :=
      hc ▸ hallowed
    exact ⟨fun hp _ _ hc => absurd (hp.symm.trans (hcause hc)) nofun,
      fun hp _ _ hc => absurd (hp.symm.trans (hcause hc)) nofun,
      fun hp _ hc => absurd (hp.symm.trans (hcause hc)) nofun⟩
  · exact ⟨_, _, rfl, rfl, rfl, step_runningAt_hlt p, rfl⟩
  · exact ⟨_, _, 0, rfl, rfl, rfl, step_runningAt_unrecognized p, rfl⟩
  · exact ⟨_, _, addrMax + 1 + 0, rfl, rfl, rfl, step_runningAt_top p, le_rfl, rfl⟩

/-! ## Every run goes on, and execute() returns the cause of its halt -/

theorem run_succ {s u : State} (h : step s = .next u) (n : Nat) :
    Host.Core.run core (n + 1) s = Host.Core.run core n u := by
  have hstep : core.step s = .next u := h
  simp only [Host.Core.run, hstep]

theorem execute_halted {s : State} (hr : s.runState = .halted) (n : Nat) :
    execute n s = some (s, s.haltCause) := by
  cases n with
  | zero => exact if_pos hr
  | succ n => exact if_pos hr

theorem execute_succ {s u : State} (hr : s.runState ≠ .halted) (h : step s = .next u) (n : Nat) :
    execute (n + 1) s = execute n u := by
  rw [execute, if_neg hr, h]

/-- R99: every number of steps answers a next state, since each step does. -/
theorem run_next (n : Nat) (s : State) : ∃ t : State, Host.Core.run core n s = .next t := by
  induction n generalizing s with
  | zero => exact ⟨s, rfl⟩
  | succ n ih =>
    obtain ⟨u, hu⟩ := step_next s
    rw [run_succ hu]
    exact ih u

/-- R144, R148: where `n` steps end Halted, `execute()` with as much fuel returns at the halt. -/
theorem execute_of_run {n : Nat} {s t : State} (h : Host.Core.run core n s = .next t)
    (ht : t.runState = .halted) : execute n s = some (t, t.haltCause) := by
  induction n generalizing s with
  | zero => cases h; exact execute_halted ht 0
  | succ n ih =>
    by_cases hr : s.runState = .halted
    · rw [haltedIsTerminal (n + 1) s hr] at h
      cases h
      exact execute_halted hr (n + 1)
    · obtain ⟨u, hu⟩ := step_next s
      rw [run_succ hu] at h
      rw [execute_succ hr hu]
      exact ih h

/-- Settles O10, by induction on the number of steps. -/
theorem nothingIsRaised : Obligations.NothingIsRaised :=
  ⟨run_next, fun _ _ _ => execute_of_run⟩

/-! ## The engine under two displays -/

/-- R131: the checks of one instruction under two displays: one cause, or two states that `R` relates. -/
inductive SameVerdict (R : State → State → Prop) :
    Except HaltCause State → Except HaltCause State → Prop where
  | error (c : HaltCause) : SameVerdict R (.error c) (.error c)
  | ok {u u' : State} (h : R u u') : SameVerdict R (.ok u) (.ok u')

/-- A check that both runs share leaves the verdict to what follows it. -/
theorem SameVerdict.bind {α : Type} {R : State → State → Prop} {x : Except HaltCause α}
    {g g' : α → Except HaltCause State} (h : ∀ a, SameVerdict R (g a) (g' a)) :
    SameVerdict R (x >>= g) (x >>= g') := by
  cases x with
  | error c => exact .error c
  | ok a => exact h a

theorem SameVerdict.finish {R : State → State → Prop} {s s' t t' : State}
    {r r' : Except HaltCause State} (hv : SameVerdict R r r')
    (hhalt : ∀ c, R (takeHalt s c) (takeHalt s' c)) (h : finish s r = .next t)
    (h' : finish s' r' = .next t') : R t t' := by
  cases hv with
  | error c => cases h; cases h'; exact hhalt c
  | ok hR => cases h; cases h'; exact hR

/-- The two states differ in the display at most. -/
def SameButDisplay (t t' : State) : Prop := t' = { t with display := t'.display }

/-- R82: what `emitOutput` changes beside the display does not depend on the display. -/
theorem emitOutput_sameButDisplay (s : State) (d : Display) (a : Word) :
    SameButDisplay (emitOutput s a) (emitOutput { s with display := d } a) := by
  cases hp : s.params.peripheral <;> simp [SameButDisplay, emitOutput, hp]

theorem SameButDisplay.commit {t t' : State} (h : SameButDisplay t t') (u : Update) (npc : Nat) :
    SameButDisplay (commit t u npc) (commit t' u npc) := by
  rw [h]; rfl

/-- R131: an instruction other than IN does the same under two displays, except to the display. -/
theorem exec_sameButDisplay {i : Instr} (hi : ∀ m, i ≠ .inp m) {s t t' : State} {d : Display}
    (h : exec i s = .next t) (h' : exec i { s with display := d } = .next t') :
    SameButDisplay t t' := by
  have hhalt (c : HaltCause) : SameButDisplay (takeHalt s c) (takeHalt { s with display := d } c) := rfl
  have hcommit (u : Update) (npc : Nat) :
      SameButDisplay (commit s u npc) (commit { s with display := d } u npc) := rfl
  cases i with
  | add | mul | arb =>
    exact SameVerdict.finish
      (.bind fun _ => .bind fun _ => .bind fun npc => .ok (hcommit _ npc)) hhalt h h'
  | lt | eq | jt | jf =>
    exact SameVerdict.finish (.bind fun _ => .bind fun npc => .ok (hcommit _ npc)) hhalt h h'
  | out =>
    exact SameVerdict.finish
      (.bind fun a => .bind fun npc => .ok ((emitOutput_sameButDisplay s d a).commit _ npc)) hhalt h h'
  | hlt => cases h; cases h'; exact hhalt .halt
  | inp m => exact absurd rfl (hi m)

/-- The states an IN from `s` ends in under two displays: pc, rb, status, parameters and draws are the same,
and both runs record no input, or both record one. -/
structure SameButAnswer (s t t' : State) : Prop where
  engine : t' = { t with mem := t'.mem, trace := t'.trace, display := t'.display }
  trace : (t.trace = s.trace ∧ t'.trace = s.trace) ∨
    ∃ v v', t.trace = s.trace ++ [.inp v] ∧ t'.trace = s.trace ++ [.inp v']

/-- R126: what `requestInput` changes does not depend on the display. -/
theorem afterInput_withDisplay (s : State) (d : Display) :
    afterInput { s with display := d } = { afterInput s with display := d } := by
  cases hp : s.params.peripheral <;> simp [afterInput, hp]

/-- R131: IN makes the same checks under two displays, and commits an input in both runs or in neither. -/
theorem exec_inp_sameButAnswer {m : ModeField} {s t t' : State} {d : Display}
    (h : exec (.inp m) s = .next t) (h' : exec (.inp m) { s with display := d } = .next t') :
    SameButAnswer s t t' := by
  have hhalt (c : HaltCause) :
      SameButAnswer s (takeHalt s c) (takeHalt { s with display := d } c) :=
    ⟨rfl, .inl ⟨rfl, rfl⟩⟩
  have hcommit (wa npc : Nat) (v v' : Word) : SameButAnswer s
      (commit (afterInput s) { store := some (wa, v), event := some (.inp v) } npc)
      (commit (afterInput { s with display := d })
        { store := some (wa, v'), event := some (.inp v') } npc) :=
    ⟨by rw [afterInput_withDisplay]; rfl, .inr ⟨v, v', by simp, by simp⟩⟩
  exact SameVerdict.finish (.bind fun wa => .bind fun npc => .ok (hcommit wa npc _ _)) hhalt h h'

/-- R75, R131: IN leaves the same memory under two displays, except at the address it stores to. -/
theorem exec_inp_read_eq {m : ModeField} {s t t' : State} {d : Display}
    (h : exec (.inp m) s = .next t) (h' : exec (.inp m) { s with display := d } = .next t') {x : Nat}
    (hx : ∀ wa, storeAddr s 0 m = .ok wa → x ≠ wa) : t'.mem.read x = t.mem.read x := by
  obtain ⟨-, -, -, hread, -⟩ := inputFrame m s t h
  obtain ⟨-, -, -, hread', -⟩ := inputFrame m _ t' h'
  exact (hread' x hx).trans (hread x hx).symm

/-- Settles O23: of the two runs, IN is compared apart from its answer, every other instruction whole. -/
theorem engineIgnoresDisplay : Obligations.EngineIgnoresDisplay := by
  intro i s t t' d h h'
  obtain ⟨-, -, hdisplay, -⟩ := whoMayChangeWhat i s t h
  by_cases hi : ∃ m, i = .inp m
  · obtain ⟨m, rfl⟩ := hi
    obtain ⟨hengine, htrace⟩ := exec_inp_sameButAnswer h h'
    rw [hengine]
    refine ⟨rfl, rfl, rfl, rfl, rfl, rfl, fun hne => absurd rfl (hne m), ?_, fun _ _ => htrace, hdisplay⟩
    rintro _ ⟨⟩ x hx
    exact exec_inp_read_eq h h' hx
  · have hne : ∀ m, i ≠ .inp m := not_exists.1 hi
    have hsame : t' = { t with display := t'.display } := exec_sameButDisplay hne h h'
    rw [hsame]
    exact ⟨rfl, rfl, rfl, rfl, rfl, rfl, fun _ => ⟨rfl, rfl⟩, fun m hm => absurd hm (hne m),
      fun m hm => absurd hm (hne m), hdisplay⟩

end Sys2Proof.Machine
end

section
/-! PROOFS. The statements of 70_reset_and_hazards.md: the reset procedure (R134, R140), the host's override
and inspection (R142, R143, R146), and what `execute()` returns (R144, R147, R148). -/

namespace Sys2Proof.Machine

/-! ## The reset procedure -/

/-- R134: the Words past ADDR_MAX have no address, so exactly a program with such a Word is refused. -/
theorem load_eq_none_iff {p : Params} {prog : List Word} :
    State.load p prog = none ↔ addrMax + 1 < prog.length := by
  rw [State.load, ite_eq_right_iff, ← not_le]
  exact imp_congr_right fun _ => iff_false_intro nofun

/-- R134, R140: the loaded machine is the one reset with the empty program, but for its memory. -/
theorem load_eq_some_iff {p : Params} {prog : List Word} {s : State} :
    State.load p prog = some s ↔ prog.length ≤ addrMax + 1 ∧
      s = { State.resetWith p with mem := Memory.writeWords [] 0 prog } := by
  rw [State.load, Option.ite_none_right_eq_some, Option.some_inj, eq_comm (a := s)]

/-- R134: a program written from 0 reads back in order, with 0 at every address past its end. -/
theorem read_writeWords_nil {prog : List Word} (hfits : prog.length ≤ addrMax + 1) (a : Nat) :
    (Memory.writeWords [] 0 prog).read a = prog.getD a 0 := by
  rw [read_writeWords prog [] 0 a (by rwa [Nat.zero_add]), if_pos (Nat.zero_le a), Nat.sub_zero,
    read_nil, List.getD_eq_getElem?_getD]

/-- R134: the Words of a program keep memory canonical, so the invariant of the reset holds after it. -/
theorem loaded_inv (p : Params) (prog : List Word) :
    Inv { State.resetWith p with mem := Memory.writeWords [] 0 prog } :=
  { resetWith_inv p with mem := writeWords_wf prog nil_wf 0 }

/-- Settles O59, from what `State.load` refuses and what it answers; the other fields are the reset's own. -/
theorem resetLoadsProgram : Obligations.ResetLoadsProgram := by
  intro p prog
  refine ⟨load_eq_none_iff, fun s hs => ?_⟩
  obtain ⟨hfits, rfl⟩ := load_eq_some_iff.1 hs
  exact ⟨read_writeWords_nil hfits, loaded_inv p prog, rfl, rfl, rfl, rfl, rfl, rfl,
    fun _ => ⟨rfl, rfl, rfl, rfl, rfl, rfl, rfl⟩⟩

/-! ## The moves of the host -/

/-- Settles O60, by the guards of the two moves. -/
theorem hostMoves : Obligations.HostMoves := by
  refine ⟨fun s a v hr ha => if_pos ⟨hr, ha⟩, fun s a v hdeny => if_neg ?_, fun s => ?_⟩
  · rintro ⟨hr, ha⟩
    rcases hdeny with hne | hlt
    · exact hne hr
    · exact ha.not_gt hlt
  · rw [State.inspect, ite_eq_left_iff]
    exact (imp_congr_right fun _ => iff_false_intro nofun).trans not_not

/-! ## What execute() returns -/

/-- R144, R148: `execute()` answers only at a halted state that some steps reach, with its cause. -/
theorem run_of_execute {n : Nat} {s t : State} {c : HaltCause} (h : execute n s = some (t, c)) :
    t.runState = .halted ∧ c = t.haltCause ∧ ∃ k, Host.Core.run core k s = .next t := by
  induction n generalizing s with
  | zero =>
    rw [execute, Option.ite_none_right_eq_some] at h
    obtain ⟨hr, ⟨⟩⟩ := h
    exact ⟨hr, rfl, 0, rfl⟩
  | succ n ih =>
    by_cases hr : s.runState = .halted
    · rw [execute_halted hr] at h
      cases h
      exact ⟨hr, rfl, 0, rfl⟩
    · obtain ⟨u, hu⟩ := step_next s
      rw [execute_succ hr hu] at h
      obtain ⟨ht, hc, k, hk⟩ := ih h
      exact ⟨ht, hc, k + 1, by rw [run_succ hu, hk]⟩

/-- Settles O13: a run that returns is one of steps to its halt, and a halted machine answers at once. -/
theorem executeReturnsTheHaltCause : Obligations.ExecuteReturnsTheHaltCause :=
  ⟨fun _ _ _ _ => run_of_execute, fun n _ hr => execute_halted hr n⟩

end Sys2Proof.Machine
end
